-- ==== Sys2Proof/Config.lean ====
section
/-! DEFINITION. The implementation parameters of the core (spec/00_scope.md section 4): the word
width, the bound on the memory length, and the default of the decoder's strictness. R12: "No other
parameter exists." MEM_LEN itself and the setting of STRICT_MODE_DIGITS are chosen at construction, so
they stand in the state. And what no rule fixes: the answers of the two ports' hosts, as free values. -/

namespace Sys2Proof.Machine

/-- What the input source has for one request at one moment (R140). -/
inductive InReply where
  | value (v : Int)
  | exhausted
  | malformed
  /-- no answer yet -/
  | notYet
deriving DecidableEq, Repr, Inhabited

/-- What the output sink does with an offer at one moment (R141): it cannot refuse. -/
inductive OutReply where
  | accept
  /-- not accepted yet -/
  | notYet
deriving DecidableEq, Repr, Inhabited

end Sys2Proof.Machine

namespace Sys2Proof.Config

/-- `WORD_BITS` (R9, D21): the width of a word, in the one named place R9 asks for. -/
def wordBits : Nat := 64

/-- The default of `STRICT_MODE_DIGITS` (R11). -/
def strictModeDigits : Bool := false

/-- The largest MEM_LEN (R10, D12): 2^63 − 4, so that pc + 4 never leaves the signed range. -/
def maxMemLen : Nat := Nat.pow 2 (wordBits - 1) - 4

/-! "Which answer comes, and when, is the host's. A model takes the answers as a stream or oracle
supplied with the run" (R140). These are those streams, numbered; nothing constrains them, so a
statement about every stream holds whatever the host answers (log 4, log 5). -/

/-- What the `id`-th open input stream answers at its `pos`-th moment (R140). -/
opaque inputStream (id pos : Nat) : Machine.InReply

/-- What the `id`-th open output stream answers at its `pos`-th moment (R141). -/
opaque outputStream (id pos : Nat) : Machine.OutReply

end Sys2Proof.Config
end

