-- ==== Sys2Proof/Word.lean ====
section
/-! DEFINITION. The words of the core (R9, R13). "All pseudocode values are mathematical integers",
a word holds one of the i64 range, and no bit pattern of a word is ever observable (R9, R55): so the
type of a word is Lean's `Int`, written so in every signature, and its range is the predicate
`InRange`, which the machine keeps (Safety.lean; log 1). -/

namespace Sys2Proof

/-- −2^63 (R9). -/
def minWord : Int := -((Nat.pow 2 (Config.wordBits - 1) : Nat) : Int)

/-- 2^63 − 1 (R9). -/
def maxWord : Int := ((Nat.pow 2 (Config.wordBits - 1) : Nat) : Int) - 1

/-- The i64 range of R9 and R13. -/
abbrev InRange (z : Int) : Prop := minWord ≤ z ∧ z ≤ maxWord

end Sys2Proof
end

