-- ==== Sys2Proof/Syntax.lean ====
section
/-! DEFINITION. The instructions as syntax: one constructor per row of spec/opcode_table.json, each
with its parameters (mode and parameter word) in the order of R19 and R76. -/

namespace Sys2Proof

/-- How one parameter is interpreted (R31, R73). -/
inductive Mode where
  /-- digit 0 -/
  | position
  /-- digit 1 -/
  | immediate
deriving DecidableEq, Repr

/-- One parameter: its mode digit's meaning and its parameter word M[pc+k] (R70). -/
structure Operand where
  mode : Mode
  word : Int
deriving DecidableEq, Repr

/-- The nine opcodes (R2). -/
inductive Opcode where
  | add | mul | inp | out | jt | jf | lt | eq | hlt
deriving DecidableEq, Repr

/-- The opcode's number (R76, R87). -/
def Opcode.code : Opcode → Nat
  | .add => 1
  | .mul => 2
  | .inp => 3
  | .out => 4
  | .jt => 5
  | .jf => 6
  | .lt => 7
  | .eq => 8
  | .hlt => 99

/-- The parameter count n (R76). -/
def Opcode.nparams : Opcode → Nat
  | .add | .mul | .lt | .eq => 3
  | .jt | .jf => 2
  | .inp | .out => 1
  | .hlt => 0

/-- The length in words, 1 + n (R76, R77). -/
def Opcode.length (op : Opcode) : Nat := 1 + op.nparams

/-- The nine instructions; the operand names are the source's (R19, R76), with `dest` for its `to`. -/
inductive Instr where
  /-- Add, R121 -/
  | add (op1 op2 target : Operand)
  /-- Multiply, R122 -/
  | mul (op1 op2 target : Operand)
  /-- Input, R142 (the table's `in`) -/
  | inp (target : Operand)
  /-- Output, R143 -/
  | out (target : Operand)
  /-- Jump-if-true, R160 -/
  | jt (cond dest : Operand)
  /-- Jump-if-false, R161 -/
  | jf (cond dest : Operand)
  /-- Less-than, R123 -/
  | lt (op1 op2 target : Operand)
  /-- Equals, R124 -/
  | eq (op1 op2 target : Operand)
  /-- Halt, R164 -/
  | hlt
deriving DecidableEq, Repr

/-- The opcode of an instruction. -/
def Instr.opcode : Instr → Opcode
  | .add _ _ _ => .add
  | .mul _ _ _ => .mul
  | .inp _ => .inp
  | .out _ => .out
  | .jt _ _ => .jt
  | .jf _ _ => .jf
  | .lt _ _ _ => .lt
  | .eq _ _ _ => .eq
  | .hlt => .hlt

/-- The parameters, k = 1 first. -/
def Instr.operands : Instr → List Operand
  | .add a b c => [a, b, c]
  | .mul a b c => [a, b, c]
  | .inp a => [a]
  | .out a => [a]
  | .jt a b => [a, b]
  | .jf a b => [a, b]
  | .lt a b c => [a, b, c]
  | .eq a b c => [a, b, c]
  | .hlt => []

end Sys2Proof
end

