-- ==== Sys2Proof/Machine/State.lean ====
section
/-! DEFINITION. The state of the core (spec/10_state.md) as plain data, the fault record, the two
ports' sides that the host decides, and the state after reset. -/

namespace Sys2Proof.Machine

/-- Memory (R21): `len` is MEM_LEN, and `cells` lists the cells that are not 0, addresses strictly
rising; a cell below `len` that is not listed holds 0 (log 2). -/
structure Memory where
  len : Nat
  cells : List (Nat × Int)
deriving DecidableEq, Repr

/-- Every listed address is from `lo` on and below `hi`, addresses strictly rise, no listed word is 0. -/
def canonicalFrom (lo hi : Nat) : List (Nat × Int) → Bool
  | [] => true
  | (a, v) :: rest => lo ≤ a && a < hi && v != 0 && canonicalFrom (a + 1) hi rest

/-- The canonical form of memory: equal memories are equal data (log 2). -/
abbrev Memory.wf (m : Memory) : Prop := canonicalFrom 0 m.len m.cells = true

/-- The run state (R26). -/
inductive Status where
  | running
  | halted
  | faulted
deriving DecidableEq, Repr

/-- Where an address was out of range (R184). -/
inductive Site where
  | fetch
  | paramCell (k : Nat)
  | operand (k : Nat)
deriving DecidableEq, Repr

/-- The six fault kinds (R180). -/
inductive FaultKind where
  | parseError
  | invalidMode
  | unknownOpcode
  | outOfBounds
  | inputUnavailable
  | overflow
deriving DecidableEq, Repr

/-- A fault and its kind-specific information (R181 to R186). -/
inductive FaultInfo where
  /-- R181 -/
  | parseError
  /-- R182: parameter number and digit; k = 4 is the strict high-digit check -/
  | invalidMode (k d : Nat)
  /-- R183: the instruction word -/
  | unknownOpcode (word : Int)
  /-- R184: the site and the offending address -/
  | outOfBounds (site : Site) (addr : Int)
  /-- R185 -/
  | inputUnavailable
  /-- R186: the opcode and the two operand values -/
  | overflow (op : Nat) (lhs rhs : Int)
deriving DecidableEq, Repr

/-- The fault record (R187). Its `kind` and `code` are computed from `info` (Machine/Ops.lean). -/
structure FaultRecord where
  /-- pc at the faulting step's fetch -/
  pc : Int
  /-- M[pc] if the fetch succeeded -/
  word : Option Int
  info : FaultInfo
deriving DecidableEq, Repr

/-- The port wait condition (R32). -/
inductive WaitCond where
  | none
  | waitIn
  | waitOut (v : Int)
deriving DecidableEq, Repr

/-- What a port's host answers once its listed replies are used up (log 4, log 5). -/
inductive Tail (Reply : Type) where
  /-- these replies in order, again and again -/
  | repeating (first : Reply) (rest : List Reply)
  /-- the free stream `id` of Config, from its `pos`-th moment on -/
  | stream (id pos : Nat)
deriving DecidableEq, Repr

/-- A port's host as plain data: the replies it gives in order, then what it gives without end. -/
structure Answers (Reply : Type) where
  script : List Reply
  after : Tail Reply
deriving DecidableEq, Repr

/-- The injected input source (R34, R140; log 4). -/
abbrev InputSource := Answers InReply

/-- The injected output sink (R35, R141; log 5). -/
abbrev OutputSink := Answers OutReply

/-- One event of the I/O trace (R144). -/
inductive PortEvent where
  | inEvent (v : Int)
  | outEvent (v : Int)
deriving DecidableEq, Repr

/-- The whole state of the core. -/
structure State where
  /-- Memory, R21 -/
  mem : Memory
  /-- the program counter, R24 -/
  pc : Int
  /-- the run-state register, R26 -/
  status : Status
  /-- the fault-record register, R27 -/
  fault : Option FaultRecord
  /-- the port wait condition, R32 -/
  wait : WaitCond
  /-- the input port's source, R34 -/
  input : InputSource
  /-- the output port's sink, R35 -/
  output : OutputSink
  /-- the I/O trace, oldest event first, R144 -/
  trace : List PortEvent
  /-- `STRICT_MODE_DIGITS`, fixed at construction, R11 -/
  strict : Bool
deriving DecidableEq, Repr

/-- No step of this core stops the model with a fault: every fault of the spec is taken, as R195
describes, in a next state whose status is Faulted (log 7). So there is no constructor. Safe. -/
inductive Fault where
deriving DecidableEq, Repr

/-- Why the model would give no meaning to an instruction. -/
inductive Refusal where
  /-- Raised only by an arm of `exec` that has no meaning yet; there is none. Safe. -/
  | notModelled (mnemonic : String)
deriving DecidableEq, Repr

/-- The state after `construct` (R220) on the empty image (MEM_LEN = 0, which R10 allows), the empty
scripted source (R140: it answers Exhausted) and a sink that always accepts (log 3). -/
def State.reset : State where
  mem := ⟨0, []⟩
  pc := 0
  status := .running
  fault := Option.none
  wait := .none
  input := ⟨[], .repeating .exhausted []⟩
  output := ⟨[], .repeating .accept []⟩
  trace := []
  strict := Config.strictModeDigits

end Sys2Proof.Machine
end

