-- ==== Sys2Proof/Machine/Flags.lean ====
section
/-! DEFINITION. The core has no flags (R28). What stands here is what other machines would make
flags of: the truth word of a comparison, which goes to memory, and the overflow test, which faults. -/

namespace Sys2Proof.Machine

/-- The result of a comparison: exactly 1 or 0 (R123, R124). -/
def truthWord (b : Bool) : Int := if b then 1 else 0

/-- The exact result if it is an i64, else Overflow with the opcode and the operand values (R120, R186). -/
def exactOrOverflow (op : Opcode) (x y result : Int) : Except FaultInfo Int :=
  if InRange result then .ok result else .error (.overflow op.code x y)

end Sys2Proof.Machine
end

