-- ==== Sys2Proof/Machine/Ops.lean ====
section
/-! DEFINITION. The named operations of the core: memory (spec/20_memory.md), raising a fault
(spec/60_exceptions.md section 3, the one shared description of it), the two ports
(spec/42_io.md section 1) and the commit of a step (R108). -/

namespace Sys2Proof.Machine

/-! ## Memory -/

/-- The word listed at an address, 0 if none is. -/
def lookup : List (Nat × Int) → Nat → Int
  | [], _ => 0
  | (b, v) :: rest, a => if a = b then v else lookup rest a

/-- The list with address `a` holding `v`, kept canonical: no entry for a 0. -/
def put : List (Nat × Int) → Nat → Int → List (Nat × Int)
  | [], a, v => if v = 0 then [] else [(a, v)]
  | (b, u) :: rest, a, v =>
    if a < b then (if v = 0 then (b, u) :: rest else (a, v) :: (b, u) :: rest)
    else if a = b then (if v = 0 then rest else (a, v) :: rest)
    else (b, u) :: put rest a v

/-- `inb(a)` of R15. -/
abbrev Memory.inb (m : Memory) (a : Int) : Prop := 0 ≤ a ∧ a < m.len

/-- The word at `a`, none out of bounds (R51). -/
def Memory.read (m : Memory) (a : Int) : Option Int :=
  if m.inb a then some (lookup m.cells a.toNat) else none

/-- Memory with `v` at `a`, none out of bounds (R52). -/
def Memory.write (m : Memory) (a v : Int) : Option Memory :=
  if m.inb a then some ⟨m.len, put m.cells a.toNat v⟩ else none

/-- The cells of an image from address `a` on. -/
def imageCells (a : Nat) : List Int → List (Nat × Int)
  | [] => []
  | v :: vs => if v = 0 then imageCells (a + 1) vs else (a, v) :: imageCells (a + 1) vs

/-- Memory as construction makes it: cell i holds the i-th integer of the image (R21, R220). -/
def Memory.ofImage (image : List Int) : Memory := ⟨image.length, imageCells 0 image⟩

/-- The words from `a` on that are in bounds, at most `count`. -/
def Memory.wordsFrom (m : Memory) (a : Int) : Nat → List Int
  | 0 => []
  | count + 1 =>
    match m.read a with
    | some v => v :: m.wordsFrom (a + 1) count
    | none => []

/-! ## Faults -/

/-- The kind of a fault (R180). -/
def FaultInfo.kind : FaultInfo → FaultKind
  | .parseError => .parseError
  | .invalidMode _ _ => .invalidMode
  | .unknownOpcode _ => .unknownOpcode
  | .outOfBounds _ _ => .outOfBounds
  | .inputUnavailable => .inputUnavailable
  | .overflow _ _ _ => .overflow

/-- The code of a fault kind (R180). -/
def FaultKind.code : FaultKind → Nat
  | .parseError => 1
  | .invalidMode => 2
  | .unknownOpcode => 3
  | .outOfBounds => 4
  | .inputUnavailable => 5
  | .overflow => 6

/-- The record's `kind` field (R187). -/
def FaultRecord.kind (r : FaultRecord) : FaultKind := r.info.kind

/-- The record's `code` field (R187). -/
def FaultRecord.code (r : FaultRecord) : Nat := r.kind.code

/-- The record a fault of this state's step leaves (R187): the word is M[pc] where the fetch succeeds. -/
def State.faultRecord (s : State) (f : FaultInfo) : FaultRecord := ⟨s.pc, s.mem.read s.pc, f⟩

/-- Taking a fault (R195): status and record are written, memory, pc and both ports stay. The step
has ended, so no wait condition stands (R32: it "ends when the port answers"; log 8). -/
def State.raise (s : State) (f : FaultInfo) : State :=
  { s with status := .faulted, fault := some (s.faultRecord f), wait := .none }

/-- The end of a step (R108): what the instruction computed is committed whole, or its fault is taken
on the state before the step (R191). -/
def commit (s : State) (r : Except FaultInfo State) : Host.Outcome State Fault Refusal :=
  match r with
  | .ok t => .next t
  | .error f => .next (s.raise f)

/-! ## Registers and memory as a step uses them -/

/-- `MemRead(a, 1)` on the resolved address of parameter `k` (R15, R51). The address was checked when
it was resolved, so this guard never fires in a step (R53, R184; log 11). -/
def memRead (s : State) (k : Nat) (a : Int) : Except FaultInfo Int :=
  match s.mem.read a with
  | some v => .ok v
  | none => .error (.outOfBounds (.operand k) a)

/-- The state with this memory. -/
def State.setMem (s : State) (m : Memory) : State := { s with mem := m }

/-- `MemWrite(a, 1, v)` on the resolved address of parameter `k` (R15, R52); its guard is `memRead`'s. -/
def memWrite (s : State) (k : Nat) (a v : Int) : Except FaultInfo State :=
  match s.mem.write a v with
  | some m => .ok (s.setMem m)
  | none => .error (.outOfBounds (.operand k) a)

/-- `pc <- target`, unchecked (R24, R109, R162). -/
def State.setPc (s : State) (target : Int) : State := { s with pc := target }

/-- Past an instruction of `op`: `pc + length(op)` (R109). -/
def State.advance (s : State) (op : Opcode) : State := s.setPc (s.pc + op.length)

/-- Running to Halted (R164). -/
def State.halt (s : State) : State := { s with status := .halted }

/-! ## Ports -/

/-- The reply at this moment and the host after it, where `free` says what the free streams answer. -/
def Answers.next {Reply : Type} (free : Nat → Nat → Reply) (host : Answers Reply) :
    Reply × Answers Reply :=
  match host.script with
  | r :: rest => (r, ⟨rest, host.after⟩)
  | [] =>
    match host.after with
    | .repeating r rest => (r, ⟨rest, .repeating r rest⟩)
    | .stream id pos => (free id pos, ⟨[], .stream id (pos + 1)⟩)

/-- The replies a host lists, the repeated ones included. -/
def Answers.listed {Reply : Type} (host : Answers Reply) : List Reply :=
  match host.after with
  | .repeating r rest => host.script ++ r :: rest
  | .stream _ _ => host.script

/-- R140's answers are `Value(v)` with v an i64, and three without a value. -/
def InReply.inRange : InReply → Bool
  | .value v => decide (InRange v)
  | .exhausted => true
  | .malformed => true
  | .notYet => true

/-- Every value the source lists is an i64: what R140 requires of a source. -/
abbrev InputSource.InRange (src : InputSource) : Prop := src.listed.all InReply.inRange = true

/-- The answer of a free input stream: a value outside i64 is `Malformed`, as R140 and R206 say of the
host adapter (D9), so that every answer is one of R140's (log 4). -/
def InReply.ofStream (id pos : Nat) : InReply :=
  if (Config.inputStream id pos).inRange then Config.inputStream id pos else .malformed

/-- `InPull()` at this moment: the reply, and the source after it (R140). -/
def InputSource.pull (src : InputSource) : InReply × InputSource := src.next InReply.ofStream

/-- An `OutPush` at this moment: the sink's reply, and the sink after it (R141). -/
def OutputSink.offer (snk : OutputSink) : OutReply × OutputSink := snk.next Config.outputStream

/-- An input value is consumed: the wait ends, and the trace records it (R32, R144). -/
def State.consumeInput (s : State) (v : Int) : State :=
  { s with input := s.input.pull.2, wait := .none, trace := s.trace ++ [.inEvent v] }

/-- The sink has accepted `v`: the wait ends, and the trace records it (R32, R144). -/
def State.acceptOutput (s : State) (v : Int) : State :=
  { s with output := s.output.offer.2, wait := .none, trace := s.trace ++ [.outEvent v] }

/-- The step is suspended at the input port (R32): only the wait condition shows it, and the moment
at which the source did not answer is past. -/
def State.suspendInput (s : State) : State := { s with input := s.input.pull.2, wait := .waitIn }

/-- The step is suspended at the output port, offering `v` (R32). -/
def State.suspendOutput (s : State) (v : Int) : State :=
  { s with output := s.output.offer.2, wait := .waitOut v }

end Sys2Proof.Machine
end

