-- ==== Sys2Proof/Machine/Operands.lean ====
section
/-! DEFINITION. The mode resolver (R78 to R81, R106): from a parameter to its resolved address, with
the two bounds checks of each parameter in their order. -/

namespace Sys2Proof.Machine

/-- The address parameter `k` names, before any check: the parameter word in Position mode (R78), the
parameter's own cell in Immediate mode (R79). -/
def State.addrOf (s : State) (k : Nat) (o : Operand) : Int :=
  match o.mode with
  | .position => o.word
  | .immediate => s.pc + k

/-- The resolution of parameter `k` (R106): its cell is checked (R80), then the address (R81). -/
def resolve (s : State) (k : Nat) (o : Operand) : Except FaultInfo Int :=
  if s.mem.inb (s.pc + k) then
    if s.mem.inb (s.addrOf k o) then .ok (s.addrOf k o)
    else .error (.outOfBounds (.operand k) (s.addrOf k o))
  else .error (.outOfBounds (.paramCell k) (s.pc + k))

/-- Parameters from the k-th on, each fully resolved and checked before the next (R106). -/
def resolveFrom (s : State) (k : Nat) : List Operand → Except FaultInfo (List Int)
  | [] => .ok []
  | o :: os =>
    match resolve s k o with
    | .error f => .error f
    | .ok a =>
      match resolveFrom s (k + 1) os with
      | .error f => .error f
      | .ok as => .ok (a :: as)

/-- The two addresses of a jump. -/
def resolve2 (s : State) (o1 o2 : Operand) : Except FaultInfo (Int × Int) := do
  let a1 ← resolve s 1 o1
  let a2 ← resolve s 2 o2
  return (a1, a2)

/-- The three addresses of a data instruction. -/
def resolve3 (s : State) (o1 o2 o3 : Operand) : Except FaultInfo (Int × Int × Int) := do
  let a1 ← resolve s 1 o1
  let a2 ← resolve s 2 o2
  let a3 ← resolve s 3 o3
  return (a1, a2, a3)

end Sys2Proof.Machine
end

