-- ==== Sys2Proof/Machine/Alu.lean ====
section
/-! DEFINITION. The four three-parameter data instructions (spec/41_alu.md). -/

namespace Sys2Proof.Machine

/-- The shape the four share (R121 to R125): resolve, read both operands, compute, write, advance. -/
def dataOp (op : Opcode) (f : Int → Int → Except FaultInfo Int) (op1 op2 target : Operand)
    (s : State) : Host.Outcome State Fault Refusal :=
  commit s do
    let (a1, a2, a3) ← resolve3 s op1 op2 target
    let x ← memRead s 1 a1
    let y ← memRead s 2 a2
    let r ← f x y
    let t ← memWrite s 3 a3 r
    return t.advance op

/-- Add (R121). -/
def execAdd (op1 op2 target : Operand) (s : State) : Host.Outcome State Fault Refusal :=
  dataOp .add (fun x y => exactOrOverflow .add x y (x + y)) op1 op2 target s

/-- Multiply (R122). -/
def execMul (op1 op2 target : Operand) (s : State) : Host.Outcome State Fault Refusal :=
  dataOp .mul (fun x y => exactOrOverflow .mul x y (x * y)) op1 op2 target s

/-- Less-than (R123): signed and strict. -/
def execLt (op1 op2 target : Operand) (s : State) : Host.Outcome State Fault Refusal :=
  dataOp .lt (fun x y => .ok (truthWord (decide (x < y)))) op1 op2 target s

/-- Equals (R124). -/
def execEq (op1 op2 target : Operand) (s : State) : Host.Outcome State Fault Refusal :=
  dataOp .eq (fun x y => .ok (truthWord (decide (x = y)))) op1 op2 target s

end Sys2Proof.Machine
end

