-- ==== Sys2Proof/Machine/Control.lean ====
section
/-! DEFINITION. The two conditional jumps and Halt (spec/43_control.md). -/

namespace Sys2Proof.Machine

/-- The shape the jumps share (R160, R161): both operands are read, and the target is loaded into pc
unchanged (R162) if `taken` says so of the condition. -/
def jumpOp (op : Opcode) (taken : Int → Bool) (cond dest : Operand) (s : State) :
    Host.Outcome State Fault Refusal :=
  commit s do
    let (a1, a2) ← resolve2 s cond dest
    let c ← memRead s 1 a1
    let t ← memRead s 2 a2
    return if taken c then s.setPc t else s.advance op

/-- Jump-if-true (R160). -/
def execJt (cond dest : Operand) (s : State) : Host.Outcome State Fault Refusal :=
  jumpOp .jt (fun c => c != 0) cond dest s

/-- Jump-if-false (R161). -/
def execJf (cond dest : Operand) (s : State) : Host.Outcome State Fault Refusal :=
  jumpOp .jf (fun c => c == 0) cond dest s

/-- Halt (R164): memory, pc and fault unchanged, no port touched. -/
def execHlt (s : State) : Host.Outcome State Fault Refusal := commit s (.ok s.halt)

end Sys2Proof.Machine
end

