-- ==== Sys2Proof/Machine/Port.lean ====
section
/-! DEFINITION. Input and Output (spec/42_io.md section 2). A step that meets a port which has not
answered ends in the wait condition with no effect, and the next step resumes it (R32; log 6). -/

namespace Sys2Proof.Machine

/-- Input (R142). The target is resolved before the port is asked. -/
def execInp (target : Operand) (s : State) : Host.Outcome State Fault Refusal :=
  commit s do
    let a ← resolve s 1 target
    match s.input.pull.1 with
    | .value v =>
      let t ← memWrite s 1 a v
      return (t.consumeInput v).advance .inp
    | .exhausted => .error .inputUnavailable
    | .malformed => .error .parseError
    | .notYet => return s.suspendInput

/-- Output (R143). -/
def execOut (target : Operand) (s : State) : Host.Outcome State Fault Refusal :=
  commit s do
    let a ← resolve s 1 target
    let v ← memRead s 1 a
    match s.output.offer.1 with
    | .accept => return (s.acceptOutput v).advance .out
    | .notYet => return s.suspendOutput v

end Sys2Proof.Machine
end

