-- ==== Sys2Proof/Machine/Dispatch.lean ====
section
/-! DEFINITION. The one dispatch site (R107). -/

namespace Sys2Proof.Machine

def exec (i : Instr) (s : State) : Host.Outcome State Fault Refusal :=
  match i with
  | .add op1 op2 target => Sys2Proof.Machine.execAdd op1 op2 target s
  | .mul op1 op2 target => Sys2Proof.Machine.execMul op1 op2 target s
  | .inp target => Sys2Proof.Machine.execInp target s
  | .out target => Sys2Proof.Machine.execOut target s
  | .jt cond dest => Sys2Proof.Machine.execJt cond dest s
  | .jf cond dest => Sys2Proof.Machine.execJf cond dest s
  | .lt op1 op2 target => Sys2Proof.Machine.execLt op1 op2 target s
  | .eq op1 op2 target => Sys2Proof.Machine.execEq op1 op2 target s
  | .hlt => Sys2Proof.Machine.execHlt s

end Sys2Proof.Machine
end

