-- ==== Sys2Proof/WellFormed.lean ====
section
/-! DEFINITION. Which instructions the machine's words can hold: every parameter word is an i64 (R70:
"A parameter word is any i64; it carries no fields"). The modes and parameter counts are right by the
syntax itself. -/

namespace Sys2Proof

/-- A parameter's word is an i64 (R13, R70). -/
abbrev Operand.WellFormed (o : Operand) : Prop := InRange o.word

/-- Every parameter of the instruction is well formed. -/
abbrev Instr.WellFormed (i : Instr) : Prop := ∀ o ∈ i.operands, o.WellFormed

end Sys2Proof
end

