-- ==== Sys2Proof/Decode.lean ====
section
/-! DEFINITION. The decoder of spec/30_encoding.md (opcode, mode digits, parameter words), total on
any list of words, and after it the encoder written from the same tables (R70, R76, R87). -/

namespace Sys2Proof

/-- Why a list of words is no instruction. -/
inductive DecodeError where
  /-- there is no word at all -/
  | noWord
  /-- R71, R85: a negative word, or one whose low two digits are no opcode -/
  | unknownOpcode (w : Int)
  /-- R73, R74, R75: the parameter number and the digit (for k = 4, `w div 100000`) -/
  | invalidMode (k d : Nat)
  /-- the words end before the last parameter; the parameters that are there, k = 1 first -/
  | truncated (present : List Operand)
deriving DecidableEq, Repr

/-- `digit(w, j)` of R14. -/
def digit (w j : Nat) : Nat := w / 10 ^ j % 10

/-- The opcode numbered `c` (R71, R87). -/
def Opcode.ofCode : Nat → Option Opcode
  | 1 => some .add
  | 2 => some .mul
  | 3 => some .inp
  | 4 => some .out
  | 5 => some .jt
  | 6 => some .jf
  | 7 => some .lt
  | 8 => some .eq
  | 99 => some .hlt
  | _ => none

/-- The opcode of an instruction word: none for a negative word (R71, D1). -/
def opcodeOf (w : Int) : Option Opcode :=
  if w < 0 then none else Opcode.ofCode (w.toNat % 100)

/-- R73: 0 is Position, 1 is Immediate, any other digit is invalid. -/
def modeOfDigit (k d : Nat) : Except DecodeError Mode :=
  match d with
  | 0 => .ok .position
  | 1 => .ok .immediate
  | _ => .error (.invalidMode k d)

/-- The modes of `count` parameters from the k-th on, lowest k first (R72, R105). -/
def modesFrom (w k : Nat) : Nat → Except DecodeError (List Mode)
  | 0 => .ok []
  | count + 1 => do
    let m ← modeOfDigit k (digit w (k + 1))
    let ms ← modesFrom w (k + 1) count
    return m :: ms

/-- The further checks of `STRICT_MODE_DIGITS = true`: the mode digits of the parameters the opcode
lacks (R74), then the digits above the ten-thousands place (R75); Halt is exempt. -/
def strictCheck (op : Opcode) (w : Nat) : Except DecodeError Unit :=
  if op = .hlt then .ok ()
  else do
    let _ ← modesFrom w (op.nparams + 1) (3 - op.nparams)
    if w / 100000 = 0 then .ok () else .error (.invalidMode 4 (w / 100000))

/-- What an instruction word alone says: its opcode and the modes of its parameters. -/
structure Head where
  op : Opcode
  modes : List Mode
deriving DecidableEq, Repr

/-- R103 to R105: the opcode first, then the mode digits, then the strict checks. -/
def decodeHead (strict : Bool) (w : Int) : Except DecodeError Head :=
  match opcodeOf w with
  | none => .error (.unknownOpcode w)
  | some op => do
    let modes ← modesFrom w.toNat 1 op.nparams
    if strict then strictCheck op w.toNat
    return ⟨op, modes⟩

/-- The instruction of an opcode and its parameters; none if their number is not the opcode's. -/
def Instr.build : Opcode → List Operand → Option Instr
  | .add, [a, b, c] => some (.add a b c)
  | .mul, [a, b, c] => some (.mul a b c)
  | .inp, [a] => some (.inp a)
  | .out, [a] => some (.out a)
  | .jt, [a, b] => some (.jt a b)
  | .jf, [a, b] => some (.jf a b)
  | .lt, [a, b, c] => some (.lt a b c)
  | .eq, [a, b, c] => some (.eq a b c)
  | .hlt, [] => some .hlt
  | _, _ => none

/-- The instruction at the head of a list of words, with the words after it (R70, R77). -/
def decode (strict : Bool) : List Int → Except DecodeError (Instr × List Int)
  | [] => .error .noWord
  | w :: rest =>
    match decodeHead strict w with
    | .error e => .error e
    | .ok h =>
      let params := List.zipWith Operand.mk h.modes rest
      match Instr.build h.op params with
      | some i => .ok (i, rest.drop h.op.nparams)
      | none => .error (.truncated params)

/-! ## The encoder -/

/-- The mode digit (R73). -/
def Mode.digit : Mode → Nat
  | .position => 0
  | .immediate => 1

/-- The mode digits' part of an instruction word, the first at weight `weight` (R70). -/
def modesValue (weight : Nat) : List Operand → Nat
  | [] => 0
  | o :: os => o.mode.digit * weight + modesValue (weight * 10) os

/-- The canonical instruction word `opcode + 100·m_1 + 1000·m_2 + 10000·m_3` (R70, R87, R88). -/
def Instr.headWord (i : Instr) : Int := (i.opcode.code + modesValue 100 i.operands : Nat)

/-- The words of an instruction: its instruction word, then its parameter words (R70). -/
def encode (i : Instr) : List Int := i.headWord :: i.operands.map Operand.word

/-! ## Words from the host's numbering of the opcode table -/

/-- The signed reading of a 64-bit field: R9's range as two's complement (log 13). -/
def signedWord (v : Nat) : Int :=
  if v < Nat.pow 2 (Config.wordBits - 1) then (v : Int) else (v : Int) - (Nat.pow 2 Config.wordBits : Nat)

/-- The four words (the longest instruction) that `w` numbers, its bits above `nbits` zero; bit 0 is
the least significant bit of the first word (log 13). -/
def wordsOfBits (nbits w : Nat) : List Int :=
  [0, 1, 2, 3].map fun j =>
    signedWord (w % Nat.pow 2 nbits / Nat.pow 2 (Config.wordBits * j) % Nat.pow 2 Config.wordBits)

/-- The instruction the decoder reads from the bits of `w`, at the default setting (R11). -/
def decodeTableWord (nbits w : Nat) : Option Instr :=
  match decode Config.strictModeDigits (wordsOfBits nbits w) with
  | .ok (i, _) => some i
  | .error _ => none

end Sys2Proof
end

