-- ==== Sys2Proof/Machine/Fetch.lean ====
section
/-! DEFINITION. Fetch and decode at pc (R102 to R106), with the faults of those stages in the order of
R189, and the load that the host's withFetchWord stands for. -/

namespace Sys2Proof.Machine

/-- The fault of words that end before the instruction does: the parameters that are there are
resolved in order first, then the first missing parameter cell faults (R80, R106; log 10). -/
def truncatedFault (s : State) (present : List Operand) : FaultInfo :=
  match resolveFrom s 1 present with
  | .error f => f
  | .ok _ => .outOfBounds (.paramCell (present.length + 1)) (s.pc + (present.length + 1))

/-- The fault a decode error is on this machine. -/
def decodeFault (s : State) : DecodeError → FaultInfo
  | .noWord => .outOfBounds .fetch s.pc
  | .unknownOpcode w => .unknownOpcode w
  | .invalidMode k d => .invalidMode k d
  | .truncated present => truncatedFault s present

/-- The words at pc that memory has, at most the four of the longest instruction (R70, R77); none
where pc is out of range (R102). -/
def State.fetchWords (s : State) : List Int := s.mem.wordsFrom s.pc 4

/-- The instruction at pc, or the fault of the fetch and decode stages. -/
def fetchDecode (s : State) : Except FaultInfo Instr :=
  match decode s.strict s.fetchWords with
  | .ok (i, _) => .ok i
  | .error e => .error (decodeFault s e)

/-! ## The load from outside -/

/-- Memory that reaches at least up to `len`, its new cells 0. -/
def Memory.growTo (m : Memory) (len : Nat) : Memory := { m with len := max m.len len }

/-- Memory with the words at `a` and after it, below the end of memory. -/
def Memory.load (m : Memory) (a : Nat) : List Int → Memory
  | [] => m
  | v :: vs =>
    match m.write a v with
    | some m' => m'.load (a + 1) vs
    | none => m

/-- The state with the words loaded at pc as a program image is, and running (log 15): a pc below 0
is set to the entry point 0, and memory is made long enough. -/
def State.loadAtPc (s : State) (ws : List Int) : State :=
  let base := s.pc.toNat
  { s with
    mem := (s.mem.growTo (base + ws.length)).load base ws
    pc := base
    status := .running
    fault := Option.none
    wait := .none }

end Sys2Proof.Machine
end

