-- ==== Sys2Proof/Machine/Step.lean ====
section
/-! DEFINITION. One step of the core (R100), and where the host places an instruction. -/

namespace Sys2Proof.Machine

/-- One step (R100). Outside Running nothing changes (R101); in Running the instruction at pc is
fetched, decoded and executed, or its fault is taken. -/
def step (s : State) : Host.Outcome State Fault Refusal :=
  match s.status with
  | .running =>
    match fetchDecode s with
    | .ok i => exec i s
    | .error f => commit s (.error f)
  | .halted => .next s
  | .faulted => .next s

/-- The state with an instruction, numbered as the opcode table numbers its bits, loaded where the
next step fetches (log 3, log 13, log 15). -/
def State.withFetchWord (s : State) (nbits w : Nat) : State := s.loadAtPc (wordsOfBits nbits w)

end Sys2Proof.Machine
end

