-- ==== Sys2Proof/Machine/Asm.lean ====
section
/-! DEFINITION. The spec's own notation for programs (R18, R88 to R90): assembly statements as syntax
trees, the pseudo-instruction jmp, and disassembly. It is no part of the hardware (D13; log 20). -/

namespace Sys2Proof.Asm

open Sys2Proof

/-- `expr` of R88. -/
inductive Expr where
  | int (z : Int)
  | label (name : String)
deriving DecidableEq, Repr

/-- `operand` of R88: `[expr]` is Position, `#expr` is Immediate. -/
structure Arg where
  mode : Mode
  expr : Expr
deriving DecidableEq, Repr

/-- `stmt` of R88, and the pseudo-instruction of R89. -/
inductive Stmt where
  | instr (op : Opcode) (args : List Arg)
  | jmp (dest : Arg)
  | word (ws : List Int)
deriving DecidableEq, Repr

/-- `line` of R88, its comment dropped. -/
structure Line where
  label : Option String
  stmt : Option Stmt
deriving DecidableEq, Repr

/-- `jmp X` is `jt #1, X` (R89). -/
def Stmt.expand : Stmt → Stmt
  | .jmp dest => .instr .jt [⟨.immediate, .int 1⟩, dest]
  | .instr op args => .instr op args
  | .word ws => .word ws

/-- How many words a statement emits. -/
def Stmt.size : Stmt → Nat
  | .instr op _ => op.length
  | .jmp _ => Opcode.jt.length
  | .word ws => ws.length

/-- A label's value is the address of the next word emitted (R88). -/
def symbols (at_ : Nat) : List Line → List (String × Nat)
  | [] => []
  | ⟨label, stmt⟩ :: rest =>
    let tail := symbols (at_ + (stmt.map Stmt.size).getD 0) rest
    match label with
    | some l => (l, at_) :: tail
    | none => tail

/-- The value of an expression, none for an unknown label. DESIGN CHOICE (log 20): a label defined on two
lines has the address of its first definition; R88 does not say which. -/
def Expr.value (table : List (String × Nat)) : Expr → Option Int
  | .int z => some z
  | .label l => (table.lookup l).map fun (a : Nat) => (a : Int)

/-- The parameters of a statement. -/
def operands (table : List (String × Nat)) : List Arg → Option (List Operand)
  | [] => some []
  | a :: as => do
    let w ← a.expr.value table
    let os ← operands table as
    return ⟨a.mode, w⟩ :: os

/-- The words of a statement (R88); none for a wrong operand count or an unknown label. -/
def Stmt.words (table : List (String × Nat)) (st : Stmt) : Option (List Int) :=
  match st.expand with
  | .word ws => some ws
  | .jmp _ => none
  | .instr op args => do
    let os ← operands table args
    let i ← Instr.build op os
    return encode i

/-- The words of the lines, under a finished label table. -/
def emit (table : List (String × Nat)) : List Line → Option (List Int)
  | [] => some []
  | l :: rest => do
    let ws ← match l.stmt with
      | some st => st.words table
      | none => some []
    let tail ← emit table rest
    return ws ++ tail

/-- The image a program text stands for (R88). -/
def assemble (lines : List Line) : Option (List Int) := emit (symbols 0 lines) lines

/-! ## Disassembly -/

/-- The statement of an instruction. -/
def ofInstr (i : Instr) : Stmt := .instr i.opcode (i.operands.map fun o => ⟨o.mode, .int o.word⟩)

/-- One statement from the words at an address control reaches, and the words after it: a word that
would fault is `.word` (R90). -/
def disassembleOne (strict : Bool) : List Int → Option (Stmt × List Int)
  | [] => none
  | w :: rest =>
    match decode strict (w :: rest) with
    | .ok (i, after) => some (ofInstr i, after)
    | .error _ => some (.word [w], rest)

/-- The listing of the words from address `at_` on: an instruction only at the addresses of `path`,
those control takes, and `.word` elsewhere (R90). `fuel` bounds the statements. DESIGN CHOICE (log 20):
an address of `path` inside the parameters of an instruction already listed gets no line of its own; R90
does not say how overlapping instructions are printed. -/
def listing (strict : Bool) (path : List Nat) : Nat → Nat → List Int → List Stmt
  | 0, _, _ => []
  | _ + 1, _, [] => []
  | fuel + 1, at_, w :: rest =>
    if path.contains at_ then
      match disassembleOne strict (w :: rest) with
      | some (st, after) => st :: listing strict path fuel (at_ + st.size) after
      | none => []
    else .word [w] :: listing strict path fuel (at_ + 1) rest

/-! ## Text -/

/-- The mnemonic (R18). -/
def mnemonic : Opcode → String
  | .add => "add"
  | .mul => "mul"
  | .inp => "in"
  | .out => "out"
  | .jt => "jt"
  | .jf => "jf"
  | .lt => "lt"
  | .eq => "eq"
  | .hlt => "hlt"

/-- An expression as R88 writes it. -/
def Expr.text : Expr → String
  | .int z => toString z
  | .label l => l

/-- An operand as R88 writes it. -/
def Arg.text (a : Arg) : String :=
  match a.mode with
  | .position => "[" ++ a.expr.text ++ "]"
  | .immediate => "#" ++ a.expr.text

/-- A statement as R88 and R89 write it. -/
def Stmt.text : Stmt → String
  | .instr op args =>
    match args with
    | [] => mnemonic op
    | _ :: _ => mnemonic op ++ " " ++ String.intercalate ", " (args.map Arg.text)
  | .jmp dest => "jmp " ++ dest.text
  | .word ws => ".word " ++ String.intercalate ", " (ws.map fun w => toString w)

end Sys2Proof.Asm
end

