-- ==== Sys2Proof/Machine/Run.lean ====
section
/-! DEFINITION. The host interface of spec/60_exceptions.md section 5 over the step: construction,
the outcome of a step, finished(), run() and the readouts. -/

namespace Sys2Proof.Machine

/-- `construct(image, source, sink)` (R220) with the run's STRICT_MODE_DIGITS (R11). None for an image
that is no list of i64 or is longer than R10 allows (I20), and, as the model's choice, none for a source
that lists a value outside i64, which R140 has no answer for (log 16). -/
def construct (image : List Int) (source : InputSource) (sink : OutputSink) (strict : Bool) :
    Option State :=
  if image.length ≤ Config.maxMemLen ∧ (∀ w ∈ image, InRange w) ∧ source.InRange then
    some { mem := Memory.ofImage image, pc := 0, status := .running, fault := none, wait := .none,
           input := source, output := sink, trace := [], strict := strict }
  else none

/-- `finished()` (R110): false where pc is out of range, and independent of the status. -/
def finished (s : State) : Bool :=
  match s.mem.read s.pc with
  | some w => decide (0 ≤ w) && w.toNat % 100 == 99
  | none => false

/-- The outcome a step reports (R100, R201): these four and no other. -/
inductive StepReport where
  | next
  | halt
  | fault (r : FaultRecord)
  | wait (c : WaitCond)
deriving DecidableEq, Repr

/-- The outcome of the step from `s`. Outside Running the step is a no-op that reports the status (R101,
D17): Halt in Halted, the fault record in Faulted (log 26). None only where a Faulted state has no record,
which no run reaches (R27). -/
def stepReport (s : State) : Option StepReport :=
  match s.status with
  | .halted => some .halt
  | .faulted => s.fault.map .fault
  | .running =>
    match step s with
    | .next t =>
      match t.status, t.wait with
      | .halted, _ => some .halt
      | .faulted, _ => t.fault.map .fault
      | .running, .none => some .next
      | .running, c => some (.wait c)
    | .fault _ => none
    | .refused _ => none

/-- `status()` (R204): the run state and, while a step waits, the port it waits on. -/
def statusReadout (s : State) : Status × WaitCond := (s.status, s.wait)

/-- `fault()` (R204). -/
def faultReadout (s : State) : Option FaultRecord := s.fault

/-- `result()` (R112, R204): M[0], once the status is Halted. -/
def result (s : State) : Option Int :=
  match s.status with
  | .halted => s.mem.read 0
  | .running => none
  | .faulted => none

/-- What `run()` returns (R111); `unfinished` is the host's bound reached (R198; log 19). -/
inductive RunResult where
  | result (v : Int)
  | fault (r : FaultRecord)
  | unfinished
deriving DecidableEq, Repr

/-- What `run()` returns without a further step, if it returns (R111). -/
def runEnd (s : State) : Option RunResult :=
  match s.status with
  | .faulted => s.fault.map .fault
  | .halted => (result s).map .result
  | .running => none

/-- `run()` (R111) for at most `bound` steps: what it returns, and the state it leaves. -/
def runFor : Nat → State → RunResult × State
  | 0, s => ((runEnd s).getD .unfinished, s)
  | bound + 1, s =>
    match runEnd s with
    | some r => (r, s)
    | none =>
      match step s with
      | .next t => runFor bound t
      | .fault _ => (.unfinished, s)
      | .refused _ => (.unfinished, s)

/-- The source's own loop (C4): it tests finished() before each step and never steps the Halt word.
It returns the state at which finished() held; none if a fault or the bound came first. -/
def sourceLoop : Nat → State → Option State
  | 0, _ => none
  | bound + 1, s =>
    match s.status with
    | .running =>
      if finished s then some s
      else
        match step s with
        | .next t => sourceLoop bound t
        | .fault _ => none
        | .refused _ => none
    | .halted => none
    | .faulted => none

end Sys2Proof.Machine
end

