-- ==== Sys2Proof/Safety.lean ====
section
/-! DEFINITION. The invariant of every state of a run, and the ways a run can end (R209). -/

namespace Sys2Proof.Machine

/-- Every word memory holds is an i64 (R9, R21). -/
abbrev Memory.wordsInRange (m : Memory) : Prop := ∀ c ∈ m.cells, InRange c.2

/-- The value of a port event is an i64 (R9). -/
abbrev PortEvent.InRange : PortEvent → Prop
  | .inEvent v => Sys2Proof.InRange v
  | .outEvent v => Sys2Proof.InRange v

/-- Memory and the registers hold what their widths hold: memory is canonical, no longer than R10
allows and all i64; pc, the value a waiting Output offers, the values the source lists and the trace's are i64 (R9,
R10, R13, R24, R32). -/
structure State.DataInv (s : State) : Prop where
  memWf : s.mem.wf
  memLen : s.mem.len ≤ Config.maxMemLen
  memRange : s.mem.wordsInRange
  pcRange : InRange s.pc
  waitRange : ∀ v, s.wait = .waitOut v → InRange v
  inputRange : s.input.InRange
  traceRange : ∀ e ∈ s.trace, e.InRange

/-- The control registers agree: the fault record is there exactly in Faulted (R27), it names this pc
and M[pc] (R187, R195), and a wait condition stands only in Running, at an Input for WaitIn and, for
WaitOut(v), at an Output whose operand is v (R32, R207). -/
structure State.ControlInv (s : State) : Prop where
  faultIff : s.fault.isSome ↔ s.status = .faulted
  faultAt : ∀ r, s.fault = some r → r.pc = s.pc ∧ r.word = s.mem.read s.pc
  waitRunning : s.wait ≠ .none → s.status = .running
  waitInAt : s.wait = .waitIn → ∃ o, fetchDecode s = .ok (.inp o)
  waitOutAt : ∀ v, s.wait = .waitOut v →
    ∃ o, fetchDecode s = .ok (.out o) ∧ s.mem.read (s.addrOf 1 o) = some v

/-- The invariant of every state of a run. -/
structure State.Inv (s : State) : Prop where
  data : s.DataInv
  control : s.ControlInv

/-- `t` is reached from `s` in `n` steps of the host's machine. -/
abbrev ReachesIn (n : Nat) (s t : State) : Prop := Host.Core.run Sys2Proof.core n s = .next t

/-- The run from `s` ends Halted: the one normal end (R209). -/
def EndsHalted (s : State) : Prop := ∃ n t, ReachesIn n s t ∧ t.status = .halted

/-- The run from `s` ends Faulted (R209). -/
def EndsFaulted (s : State) : Prop := ∃ n t, ReachesIn n s t ∧ t.status = .faulted

/-- The run from `s` is stuck: from some step on it waits at a port for ever (R145, R209). -/
def EndsStuck (s : State) : Prop :=
  ∃ n, ∀ m, n ≤ m → ∃ t, ReachesIn m s t ∧ t.status = .running ∧ t.wait ≠ .none

/-- The run from `s` hangs: it runs for ever and completes a step again and again (R165, R209). -/
def Hangs (s : State) : Prop :=
  (∀ n, ∃ t, ReachesIn n s t ∧ t.status = .running) ∧
    ∀ n, ∃ m t, n ≤ m ∧ ReachesIn m s t ∧ t.wait = .none

/-- A safe run of `n` steps: no step of it faults. -/
def SafeFor (n : Nat) (s : State) : Prop :=
  ∀ m t, m ≤ n → ReachesIn m s t → t.status ≠ .faulted

end Sys2Proof.Machine
end

