-- ==== Sys2Proof/Certificates/Slice0/Obligations.lean ====
section
/-! DEFINITION. The statements about the model, each with the rule of spec/ it formalises. A statement
that only an ill-formed memory could break has the canonical form `Memory.wf` as a premise, and one
that only an impossible wait condition could break has `State.ControlInv`; the steps keep both
(StepKeepsDataInvariant, StepKeepsControlInvariant). -/

open Sys2Proof Sys2Proof.Machine

/-! ## The spec's terms the statements use -/

/-- Parameter `k` resolves: its cell is in bounds (R80), and so is the address it names (R81). -/
abbrev Sys2Proof.Machine.Resolves (s : State) (k : Nat) (o : Operand) : Prop :=
  s.mem.inb (s.pc + k) ∧ s.mem.inb (s.addrOf k o)

/-- `m` is the memory of `s` with `v` at `a` and every other cell as before (R52). -/
def Sys2Proof.Machine.StoredAt (s : State) (a v : Int) (m : Memory) : Prop :=
  m.wf ∧ m.len = s.mem.len ∧ ∀ b : Int, m.read b = if b = a then some v else s.mem.read b

/-- `s` after the fault entry of R195: only status, fault and the wait condition differ, and the
record is R187's. That no wait condition stands after it is log 8: it was None, or the port has
answered (R32). -/
abbrev Sys2Proof.Machine.State.faultedWith (s : State) (word : Option Int) (f : FaultInfo) : State :=
  { s with status := .faulted, fault := some ⟨s.pc, word, f⟩, wait := .none }

/-- The resolved address of parameter `k` of the instruction word `w` at pc, from the mode digit:
M[pc+k] in Position mode (R78), pc+k in Immediate mode (R79). -/
def Sys2Proof.Machine.State.specAddr (s : State) (w : Int) (k : Nat) : Int :=
  if digit w.toNat (k + 1) = 0 then (s.mem.read (s.pc + k)).getD 0 else s.pc + k

/-- The written parameter of a storing instruction (R58, R76): its number and the parameter. -/
def Sys2Proof.Instr.written : Instr → Option (Nat × Operand)
  | .add _ _ o => some (3, o)
  | .mul _ _ o => some (3, o)
  | .inp o => some (1, o)
  | .out _ => none
  | .jt _ _ => none
  | .jf _ _ => none
  | .lt _ _ o => some (3, o)
  | .eq _ _ o => some (3, o)
  | .hlt => none

/-- The word a storing instruction writes (R121 to R124, R142), none where it stores nothing: on an
overflow, or without a value from the port. -/
def Sys2Proof.Machine.State.storedWord (s : State) : Instr → Option Int
  | .add a b _ => do
    let x ← s.mem.read (s.addrOf 1 a)
    let y ← s.mem.read (s.addrOf 2 b)
    if InRange (x + y) then some (x + y) else none
  | .mul a b _ => do
    let x ← s.mem.read (s.addrOf 1 a)
    let y ← s.mem.read (s.addrOf 2 b)
    if InRange (x * y) then some (x * y) else none
  | .inp _ =>
    match s.input.pull.1 with
    | .value v => some v
    | .exhausted => none
    | .malformed => none
    | .notYet => none
  | .lt a b _ => do
    let x ← s.mem.read (s.addrOf 1 a)
    let y ← s.mem.read (s.addrOf 2 b)
    return if x < y then 1 else 0
  | .eq a b _ => do
    let x ← s.mem.read (s.addrOf 1 a)
    let y ← s.mem.read (s.addrOf 2 b)
    return if x = y then 1 else 0
  | .out _ => none
  | .jt _ _ => none
  | .jf _ _ => none
  | .hlt => none

/-- The source after `n` moments at which it is asked. -/
def Sys2Proof.Machine.InputSource.atMoment : Nat → InputSource → InputSource
  | 0, src => src
  | n + 1, src => InputSource.atMoment n src.pull.2

/-- The sink after `n` moments at which an offer stands. -/
def Sys2Proof.Machine.OutputSink.atMoment : Nat → OutputSink → OutputSink
  | 0, snk => snk
  | n + 1, snk => OutputSink.atMoment n snk.offer.2

/-- The execute and resolution faults of R188's table, by instruction. -/
def Sys2Proof.Instr.MayRaise (i : Instr) : FaultInfo → Prop
  | .outOfBounds (.paramCell k) _ => 1 ≤ k ∧ k ≤ i.opcode.nparams
  | .outOfBounds (.operand k) _ => 1 ≤ k ∧ k ≤ i.opcode.nparams
  | .outOfBounds .fetch _ => False
  | .overflow op _ _ => op = i.opcode.code ∧ (i.opcode = .add ∨ i.opcode = .mul)
  | .inputUnavailable => i.opcode = .inp
  | .parseError => i.opcode = .inp
  | .invalidMode _ _ => False
  | .unknownOpcode _ => False

/-! ## Reset and construction -/

/-- State.reset is the model's choice (log 3) of R220's construct: the empty image, the empty
scripted source and a sink that accepts. -/
def Obligations.ResetIsConstructOfEmptyImage : Prop :=
  construct [] ⟨[], .repeating .exhausted []⟩ ⟨[], .repeating .accept []⟩ false = some State.reset

/-- R220: what construction leaves in every element of the state, for every image of R200 and every
source of R140. -/
def Obligations.ConstructEstablishesResetState : Prop :=
  ∀ (image : List Int) (source : InputSource) (sink : OutputSink) (strict : Bool),
    image.length ≤ Config.maxMemLen → (∀ w ∈ image, InRange w) → source.InRange →
    ∃ s, construct image source sink strict = some s ∧ s.mem.len = image.length ∧
      (∀ i : Nat, i < image.length → s.mem.read i = image[i]?) ∧
      s.pc = 0 ∧ s.status = .running ∧ s.fault = none ∧ s.wait = .none ∧
      s.input = source ∧ s.output = sink

/-- R10, I20: an image longer than 2^63 − 4 is outside the parameter range; and, as the model's choice
(log 16), there is no core for a source that lists a value outside i64. -/
def Obligations.ConstructRefusesOutOfRangeArguments : Prop :=
  ∀ (image : List Int) (source : InputSource) (sink : OutputSink) (strict : Bool),
    2 ^ 63 - 4 < image.length ∨ ¬ source.InRange → construct image source sink strict = none

/-- The invariant holds at State.reset. -/
def Obligations.ResetSatisfiesInvariant : Prop := State.reset.Inv

/-- The invariant holds of every constructed core; its trace
is empty (log 17) and its strictness is the run's parameter (log 12). -/
def Obligations.ConstructSatisfiesInvariant : Prop :=
  ∀ (image : List Int) (source : InputSource) (sink : OutputSink) (strict : Bool) (s : State),
    construct image source sink strict = some s → s.Inv ∧ s.trace = [] ∧ s.strict = strict

/-! ## Encoding and decoding -/

/-- Decode and encode agree on every instruction, every mode and every parameter word, in both
settings of STRICT_MODE_DIGITS, whatever words follow (R70 to R76). -/
def Obligations.DecodeOfEncodeIsTheInstruction : Prop :=
  ∀ (i : Instr) (strict : Bool) (rest : List Int), i.WellFormed →
    decode strict (encode i ++ rest) = .ok (i, rest)

/-- A well-formed instruction is encoded in words of the machine, as many as its opcode's length
(R9, R76, R77). -/
def Obligations.EncodedWordsAreWords : Prop :=
  ∀ i : Instr, i.WellFormed → (∀ w ∈ encode i, InRange w) ∧ (encode i).length = 1 + i.opcode.nparams

/-- Words written out from R70 and R87 decode to what they stand for. -/
def Obligations.SpecWordsDecode : Prop :=
  decode false [1002, 4, 3, 4] =
      .ok (.mul ⟨.position, 4⟩ ⟨.immediate, 3⟩ ⟨.position, 4⟩, []) ∧
    decode false [10101, -7, 5, 9] =
      .ok (.add ⟨.immediate, -7⟩ ⟨.position, 5⟩ ⟨.immediate, 9⟩, []) ∧
    decode false [103, 5] = .ok (.inp ⟨.immediate, 5⟩, []) ∧
    decode false [20004, 0] = .ok (.out ⟨.position, 0⟩, []) ∧
    decode false [1005, 9, 0] = .ok (.jt ⟨.position, 9⟩ ⟨.immediate, 0⟩, []) ∧
    decode false [106, 0, 4] = .ok (.jf ⟨.immediate, 0⟩ ⟨.position, 4⟩, []) ∧
    decode false [11107, 3, 5, 0] =
      .ok (.lt ⟨.immediate, 3⟩ ⟨.immediate, 5⟩ ⟨.immediate, 0⟩, []) ∧
    decode false [8, 7, 7, 0] = .ok (.eq ⟨.position, 7⟩ ⟨.position, 7⟩ ⟨.position, 0⟩, []) ∧
    decode true [12399] = .ok (.hlt, [])

/-- R85: the words that are no instruction, whatever the other digits and the setting. -/
def Obligations.IllegalOpcodesAreExactly : Prop :=
  ∀ (strict : Bool) (w : Int),
    decodeHead strict w = .error (.unknownOpcode w) ↔
      w < 0 ∨ ¬ (w % 100 = 1 ∨ w % 100 = 2 ∨ w % 100 = 3 ∨ w % 100 = 4 ∨ w % 100 = 5 ∨
        w % 100 = 6 ∨ w % 100 = 7 ∨ w % 100 = 8 ∨ w % 100 = 99)

/-- R73, R105: the lowest-numbered parameter with a mode digit above 1 is the one reported. -/
def Obligations.LowestBadModeDigitIsReported : Prop :=
  ∀ (strict : Bool) (w : Int) (op : Opcode) (k : Nat), opcodeOf w = some op →
    1 ≤ k → k ≤ op.nparams → 2 ≤ digit w.toNat (k + 1) →
    (∀ j, 1 ≤ j → j < k → digit w.toNat (j + 1) ≤ 1) →
    decodeHead strict w = .error (.invalidMode k (digit w.toNat (k + 1)))

/-- R74, R75, default setting: only the digits of the opcode and of its own parameters count. -/
def Obligations.UnusedDigitsAreIgnoredByDefault : Prop :=
  ∀ (w w' : Int) (op : Opcode), opcodeOf w = some op → 0 ≤ w' → w % 100 = w' % 100 →
    (∀ k, 1 ≤ k → k ≤ op.nparams → digit w.toNat (k + 1) = digit w'.toNat (k + 1)) →
    decodeHead false w = decodeHead false w'

/-- R74, R75, strict setting, for an opcode other than Halt whose own mode digits are valid: the
lowest bad digit of a parameter it lacks is reported, then the digits above the ten-thousands place,
and without either the word decodes. Halt is exempt. -/
def Obligations.StrictSettingChecksTheOtherDigits : Prop :=
  (∀ (w : Int) (op : Opcode), opcodeOf w = some op → op ≠ .hlt →
    (∀ k, 1 ≤ k → k ≤ op.nparams → digit w.toNat (k + 1) ≤ 1) →
    (∀ k, op.nparams < k → k ≤ 3 → 2 ≤ digit w.toNat (k + 1) →
      (∀ j, op.nparams < j → j < k → digit w.toNat (j + 1) ≤ 1) →
      decodeHead true w = .error (.invalidMode k (digit w.toNat (k + 1)))) ∧
    ((∀ k, op.nparams < k → k ≤ 3 → digit w.toNat (k + 1) ≤ 1) →
      (w.toNat / 100000 ≠ 0 → decodeHead true w = .error (.invalidMode 4 (w.toNat / 100000))) ∧
      (w.toNat / 100000 = 0 → decodeHead true w = decodeHead false w))) ∧
  (∀ (strict : Bool) (w : Int), opcodeOf w = some .hlt → decodeHead strict w = .ok ⟨.hlt, []⟩)

/-- The spec's assembly (R88): a disassembled instruction assembles to its own words, and an
assembled statement emits as many words as labels are counted by. -/
def Obligations.DisassemblyReassembles : Prop :=
  (∀ (i : Instr) (strict : Bool) (rest : List Int) (table : List (String × Nat)),
    Asm.disassembleOne strict (encode i ++ rest) = some (Asm.ofInstr i, rest) ∧
      (Asm.ofInstr i).words table = some (encode i)) ∧
  (∀ (st : Asm.Stmt) (table : List (String × Nat)) (ws : List Int),
    st.words table = some ws → ws.length = st.size)

/-! ## Memory -/

/-- The canonical form has one list for one memory: two canonical memories that read alike are
equal data (log 2). -/
def Obligations.CanonicalMemoriesReadingAlikeAreEqual : Prop :=
  ∀ m m' : Memory, m.wf → m'.wf → m.len = m'.len → (∀ a : Int, m.read a = m'.read a) → m = m'

/-- R51, R52, R53: a read or a write out of bounds gives nothing, and a write in bounds changes the
one cell. -/
def Obligations.MemoryAccessIsBoundsChecked : Prop :=
  ∀ (s : State) (a v : Int), s.mem.wf →
    (s.mem.inb a → (∃ u, s.mem.read a = some u) ∧
      ∃ m, s.mem.write a v = some m ∧ StoredAt s a v m) ∧
    (¬ s.mem.inb a → s.mem.read a = none ∧ s.mem.write a v = none)

/-! ## The step -/

/-- R101: a step outside Running changes nothing and ends at once. -/
def Obligations.StepOutsideRunningChangesNothing : Prop :=
  ∀ s : State, s.status = .halted ∨ s.status = .faulted → step s = .next s

/-- A step runs the decoded instruction: from the words memory has at pc. -/
def Obligations.StepRunsDecodedInstruction : Prop :=
  ∀ (s : State) (i : Instr) (rest : List Int), s.status = .running →
    decode s.strict s.fetchWords = .ok (i, rest) → step s = exec i s

/-- A step runs the instruction whose encoding stands at pc, cell for cell (R70, R102, R107). -/
def Obligations.StepRunsInstructionEncodedAtPc : Prop :=
  ∀ (s : State) (i : Instr), s.status = .running → i.WellFormed →
    (∀ j : Nat, j < (encode i).length → s.mem.read (s.pc + j) = (encode i)[j]?) →
    step s = exec i s

/-- What fetch and decode read (R70, R78, R79, R82): the instruction word at pc gives the opcode, the
parameter words are M[pc+1] .. M[pc+n], and each parameter names the address of its mode digit. -/
def Obligations.FetchDecodeReadsTheInstructionAtPc : Prop :=
  ∀ (s : State) (w : Int) (op : Opcode) (modes : List Mode), s.mem.read s.pc = some w →
    decodeHead s.strict w = .ok ⟨op, modes⟩ →
    (∀ k : Nat, 1 ≤ k → k ≤ op.nparams → s.mem.inb (s.pc + k)) →
    ∃ i, fetchDecode s = .ok i ∧ i.opcode = op ∧ i.operands.length = op.nparams ∧
      ∀ (k : Nat) (o : Operand), i.operands[k]? = some o →
        s.mem.read (s.pc + ((k + 1 : Nat) : Int)) = some o.word ∧
          s.addrOf (k + 1) o = s.specAddr w (k + 1)

/-- withFetchWord makes the very next step run the decoder's instruction (log 15). -/
def Obligations.WithFetchWordRunsTheWord : Prop :=
  ∀ (s : State) (nbits w : Nat) (i : Instr), s.mem.wf → s.strict = Config.strictModeDigits →
    decodeTableWord nbits w = some i →
    step (s.withFetchWord nbits w) = exec i (s.withFetchWord nbits w)

/-- R102: a pc out of range faults at the fetch, and otherwise M[pc] is the word fetched first. -/
def Obligations.FetchReadsThePcOrFaults : Prop :=
  ∀ s : State, s.status = .running →
    (¬ (0 ≤ s.pc ∧ s.pc < s.mem.len) →
      step s = .next (s.faultedWith none (.outOfBounds .fetch s.pc))) ∧
    (0 ≤ s.pc ∧ s.pc < s.mem.len →
      ∃ w, s.mem.read s.pc = some w ∧ s.fetchWords.head? = some w)

/-- R103, R183: an illegal word at pc faults UnknownOpcode (code 3), before any other check. -/
def Obligations.IllegalWordFaultsUnknownOpcode : Prop :=
  ∀ (s : State) (w : Int), s.status = .running → s.mem.read s.pc = some w →
    (w < 0 ∨ ¬ (w % 100 = 1 ∨ w % 100 = 2 ∨ w % 100 = 3 ∨ w % 100 = 4 ∨ w % 100 = 5 ∨
        w % 100 = 6 ∨ w % 100 = 7 ∨ w % 100 = 8 ∨ w % 100 = 99)) →
    step s = .next (s.faultedWith (some w) (.unknownOpcode w)) ∧
      FaultRecord.code ⟨s.pc, some w, .unknownOpcode w⟩ = 3

/-- R105, R182, R189: a bad mode digit faults before any parameter word is looked at, wherever the
parameters are. In the strict setting, for an opcode other than Halt, so do the digits of the parameters
it lacks (R74), lowest first, and then those above the ten-thousands place (R75). -/
def Obligations.BadModeDigitFaultsInvalidMode : Prop :=
  ∀ (s : State) (w : Int) (op : Opcode), s.status = .running →
    s.mem.read s.pc = some w → opcodeOf w = some op →
    (∀ k, 1 ≤ k → k ≤ op.nparams → 2 ≤ digit w.toNat (k + 1) →
      (∀ j, 1 ≤ j → j < k → digit w.toNat (j + 1) ≤ 1) →
      step s = .next (s.faultedWith (some w) (.invalidMode k (digit w.toNat (k + 1))))) ∧
    (s.strict = true → op ≠ .hlt →
      (∀ k, op.nparams < k → k ≤ 3 → 2 ≤ digit w.toNat (k + 1) →
        (∀ j, 1 ≤ j → j < k → digit w.toNat (j + 1) ≤ 1) →
        step s = .next (s.faultedWith (some w) (.invalidMode k (digit w.toNat (k + 1))))) ∧
      (w.toNat / 100000 ≠ 0 → (∀ j, 1 ≤ j → j ≤ 3 → digit w.toNat (j + 1) ≤ 1) →
        step s = .next (s.faultedWith (some w) (.invalidMode 4 (w.toNat / 100000)))))

/-- R80, R81: a parameter whose cell, or the address it names, is out of bounds faults. Parameters are
checked in ascending order, each cell before the address it names: that order is R106's and R189's, which
the spec marks as its own (D3; log 10, log 23). -/
def Obligations.FirstUnresolvedParameterFaults : Prop :=
  ∀ (s : State) (w : Int) (op : Opcode) (modes : List Mode) (k : Nat), s.status = .running →
    s.mem.read s.pc = some w → decodeHead s.strict w = .ok ⟨op, modes⟩ →
    1 ≤ k → k ≤ op.nparams →
    (∀ j : Nat, 1 ≤ j → j < k → s.mem.inb (s.pc + j) ∧ s.mem.inb (s.specAddr w j)) →
    (¬ s.mem.inb (s.pc + k) →
      step s = .next (s.faultedWith (some w) (.outOfBounds (.paramCell k) (s.pc + k)))) ∧
    (s.mem.inb (s.pc + k) → ¬ s.mem.inb (s.specAddr w k) →
      step s = .next (s.faultedWith (some w) (.outOfBounds (.operand k) (s.specAddr w k))))

/-! ## The instructions: results, completion and frame

Each gives the encoding, and the next state as the state before with the named fields changed, so
every field not named is unchanged: that is the frame. -/

/-- Add (R121, R120). -/
def Obligations.AddStoresTheExactSumOrOverflows : Prop :=
  (∀ op1 op2 target : Operand, encode (.add op1 op2 target) =
    [(((1 + 100 * op1.mode.digit + 1000 * op2.mode.digit + 10000 * target.mode.digit : Nat)) : Int),
      op1.word, op2.word, target.word]) ∧
  ∀ (s : State) (op1 op2 target : Operand) (x y : Int), s.mem.wf →
    Resolves s 1 op1 → Resolves s 2 op2 → Resolves s 3 target →
    s.mem.read (s.addrOf 1 op1) = some x → s.mem.read (s.addrOf 2 op2) = some y →
    (InRange (x + y) → ∃ m, StoredAt s (s.addrOf 3 target) (x + y) m ∧
      exec (.add op1 op2 target) s = .next { s with mem := m, pc := s.pc + 4 }) ∧
    (¬ InRange (x + y) →
      exec (.add op1 op2 target) s =
        .next (s.faultedWith (s.mem.read s.pc) (.overflow 1 x y)))

/-- Multiply (R122, R120). -/
def Obligations.MultiplyStoresTheExactProductOrOverflows : Prop :=
  (∀ op1 op2 target : Operand, encode (.mul op1 op2 target) =
    [(((2 + 100 * op1.mode.digit + 1000 * op2.mode.digit + 10000 * target.mode.digit : Nat)) : Int),
      op1.word, op2.word, target.word]) ∧
  ∀ (s : State) (op1 op2 target : Operand) (x y : Int), s.mem.wf →
    Resolves s 1 op1 → Resolves s 2 op2 → Resolves s 3 target →
    s.mem.read (s.addrOf 1 op1) = some x → s.mem.read (s.addrOf 2 op2) = some y →
    (InRange (x * y) → ∃ m, StoredAt s (s.addrOf 3 target) (x * y) m ∧
      exec (.mul op1 op2 target) s = .next { s with mem := m, pc := s.pc + 4 }) ∧
    (¬ InRange (x * y) →
      exec (.mul op1 op2 target) s =
        .next (s.faultedWith (s.mem.read s.pc) (.overflow 2 x y)))

/-- Less-than (R123). -/
def Obligations.LessThanStoresOneOrZero : Prop :=
  (∀ op1 op2 target : Operand, encode (.lt op1 op2 target) =
    [(((7 + 100 * op1.mode.digit + 1000 * op2.mode.digit + 10000 * target.mode.digit : Nat)) : Int),
      op1.word, op2.word, target.word]) ∧
  ∀ (s : State) (op1 op2 target : Operand) (x y : Int), s.mem.wf →
    Resolves s 1 op1 → Resolves s 2 op2 → Resolves s 3 target →
    s.mem.read (s.addrOf 1 op1) = some x → s.mem.read (s.addrOf 2 op2) = some y →
    ∃ m, StoredAt s (s.addrOf 3 target) (if x < y then 1 else 0) m ∧
      exec (.lt op1 op2 target) s = .next { s with mem := m, pc := s.pc + 4 }

/-- Equals (R124). -/
def Obligations.EqualsStoresOneOrZero : Prop :=
  (∀ op1 op2 target : Operand, encode (.eq op1 op2 target) =
    [(((8 + 100 * op1.mode.digit + 1000 * op2.mode.digit + 10000 * target.mode.digit : Nat)) : Int),
      op1.word, op2.word, target.word]) ∧
  ∀ (s : State) (op1 op2 target : Operand) (x y : Int), s.mem.wf →
    Resolves s 1 op1 → Resolves s 2 op2 → Resolves s 3 target →
    s.mem.read (s.addrOf 1 op1) = some x → s.mem.read (s.addrOf 2 op2) = some y →
    ∃ m, StoredAt s (s.addrOf 3 target) (if x = y then 1 else 0) m ∧
      exec (.eq op1 op2 target) s = .next { s with mem := m, pc := s.pc + 4 }

/-- Input (R142): it writes the port's value; it faults on Exhausted and on Malformed; while the port
has not answered, only the wait condition shows it; and a target that does not resolve faults without
asking the port. How a moment without an answer, and the trace, stand in State is the model's form
(log 4, log 6, log 17). -/
def Obligations.InputFollowsItsPort : Prop :=
  (∀ target : Operand, encode (.inp target) =
    [(((3 + 100 * target.mode.digit : Nat)) : Int), target.word]) ∧
  (∀ (s : State) (target : Operand), s.mem.wf → Resolves s 1 target →
    (∀ v, s.input.pull.1 = .value v → ∃ m, StoredAt s (s.addrOf 1 target) v m ∧
      exec (.inp target) s =
        .next { s with mem := m, pc := s.pc + 2, input := s.input.pull.2, wait := .none,
                       trace := s.trace ++ [.inEvent v] }) ∧
    (s.input.pull.1 = .exhausted →
      exec (.inp target) s = .next (s.faultedWith (s.mem.read s.pc) .inputUnavailable)) ∧
    (s.input.pull.1 = .malformed →
      exec (.inp target) s = .next (s.faultedWith (s.mem.read s.pc) .parseError)) ∧
    (s.input.pull.1 = .notYet →
      exec (.inp target) s = .next { s with input := s.input.pull.2, wait := .waitIn })) ∧
  ∀ (s : State) (target : Operand), ¬ Resolves s 1 target → ∃ site a,
    exec (.inp target) s = .next (s.faultedWith (s.mem.read s.pc) (.outOfBounds site a))

/-- Output (R143): the value goes to the sink when it accepts, until then the step waits, and an
operand that does not resolve faults with nothing offered. How the sink and the trace stand in State
is the model's form (log 5, log 6, log 17). -/
def Obligations.OutputOffersItsOperand : Prop :=
  (∀ target : Operand, encode (.out target) =
    [(((4 + 100 * target.mode.digit : Nat)) : Int), target.word]) ∧
  (∀ (s : State) (target : Operand) (v : Int), Resolves s 1 target →
    s.mem.read (s.addrOf 1 target) = some v →
    (s.output.offer.1 = .accept →
      exec (.out target) s =
        .next { s with pc := s.pc + 2, output := s.output.offer.2, wait := .none,
                       trace := s.trace ++ [.outEvent v] }) ∧
    (s.output.offer.1 = .notYet →
      exec (.out target) s = .next { s with output := s.output.offer.2, wait := .waitOut v })) ∧
  ∀ (s : State) (target : Operand), ¬ Resolves s 1 target → ∃ site a,
    exec (.out target) s = .next (s.faultedWith (s.mem.read s.pc) (.outOfBounds site a))

/-- Jump-if-true (R160); the second parameter is bounds-checked whatever the condition. -/
def Obligations.JumpIfTrueJumpsOnNonzero : Prop :=
  (∀ cond dest : Operand, encode (.jt cond dest) =
    [(((5 + 100 * cond.mode.digit + 1000 * dest.mode.digit : Nat)) : Int), cond.word, dest.word]) ∧
  (∀ (s : State) (cond dest : Operand) (c d : Int), Resolves s 1 cond → Resolves s 2 dest →
    s.mem.read (s.addrOf 1 cond) = some c → s.mem.read (s.addrOf 2 dest) = some d →
    exec (.jt cond dest) s = .next { s with pc := if c ≠ 0 then d else s.pc + 3 }) ∧
  ∀ (s : State) (cond dest : Operand), Resolves s 1 cond → s.mem.inb (s.pc + 2) →
    ¬ s.mem.inb (s.addrOf 2 dest) →
    exec (.jt cond dest) s = .next (s.faultedWith (s.mem.read s.pc)
      (.outOfBounds (.operand 2) (s.addrOf 2 dest)))

/-- Jump-if-false (R161); the second parameter is bounds-checked whatever the condition. -/
def Obligations.JumpIfFalseJumpsOnZero : Prop :=
  (∀ cond dest : Operand, encode (.jf cond dest) =
    [(((6 + 100 * cond.mode.digit + 1000 * dest.mode.digit : Nat)) : Int), cond.word, dest.word]) ∧
  (∀ (s : State) (cond dest : Operand) (c d : Int), Resolves s 1 cond → Resolves s 2 dest →
    s.mem.read (s.addrOf 1 cond) = some c → s.mem.read (s.addrOf 2 dest) = some d →
    exec (.jf cond dest) s = .next { s with pc := if c = 0 then d else s.pc + 3 }) ∧
  ∀ (s : State) (cond dest : Operand), Resolves s 1 cond → s.mem.inb (s.pc + 2) →
    ¬ s.mem.inb (s.addrOf 2 dest) →
    exec (.jf cond dest) s = .next (s.faultedWith (s.mem.read s.pc)
      (.outOfBounds (.operand 2) (s.addrOf 2 dest)))

/-- Halt (R164): any word w ≥ 0 with w mod 100 = 99 is Halt, whatever follows it; only the status
changes; and after it no step changes anything. -/
def Obligations.HaltWritesOnlyStatus : Prop :=
  encode .hlt = [99] ∧ (∀ (strict : Bool) (w : Int) (rest : List Int), 0 ≤ w → w % 100 = 99 →
    decode strict (w :: rest) = .ok (.hlt, rest)) ∧
  ∀ s : State, exec .hlt s = .next { s with status := .halted } ∧
    step { s with status := .halted } = .next { s with status := .halted }

/-- R162: a jump that is taken loads its target into pc unchanged, whatever it is; if that is out of
range, the very next step faults at its fetch. -/
def Obligations.JumpTargetsAreAbsoluteAndUnchecked : Prop :=
  ∀ (s : State) (cond dest : Operand) (c d : Int), s.status = .running →
    Resolves s 1 cond → Resolves s 2 dest →
    s.mem.read (s.addrOf 1 cond) = some c → s.mem.read (s.addrOf 2 dest) = some d →
    (c ≠ 0 → ∃ t, exec (.jt cond dest) s = .next t ∧ t.pc = d ∧ t.mem = s.mem ∧
      t.status = .running ∧ (¬ (0 ≤ d ∧ d < s.mem.len) →
        step t = .next (t.faultedWith none (.outOfBounds .fetch d)))) ∧
    (c = 0 → ∃ t, exec (.jf cond dest) s = .next t ∧ t.pc = d ∧ t.mem = s.mem ∧
      t.status = .running ∧ (¬ (0 ≤ d ∧ d < s.mem.len) →
        step t = .next (t.faultedWith none (.outOfBounds .fetch d))))

/-- An instruction whose first failing parameter is the k-th takes that fault, used or not (R81). -/
def Obligations.UnresolvedOperandFaultsInExecute : Prop :=
  ∀ (s : State) (i : Instr) (k : Nat) (o : Operand), i.operands[k]? = some o →
    (∀ (j : Nat) (p : Operand), j < k → i.operands[j]? = some p → Resolves s (j + 1) p) →
    (¬ s.mem.inb (s.pc + ((k + 1 : Nat) : Int)) →
      exec i s = .next (s.faultedWith (s.mem.read s.pc)
        (.outOfBounds (.paramCell (k + 1)) (s.pc + ((k + 1 : Nat) : Int))))) ∧
    (s.mem.inb (s.pc + ((k + 1 : Nat) : Int)) → ¬ s.mem.inb (s.addrOf (k + 1) o) →
      exec i s = .next (s.faultedWith (s.mem.read s.pc)
        (.outOfBounds (.operand (k + 1)) (s.addrOf (k + 1) o))))

/-! ## Whole-machine rules -/

/-- Only the cell of the written parameter can change, and only under a storing instruction (R58). -/
def Obligations.OnlyTheWrittenCellChanges : Prop :=
  ∀ (s t : State) (i : Instr), exec i s = .next t →
    (i.written = none → ∀ b : Int, t.mem.read b = s.mem.read b) ∧
    (∀ (k : Nat) (o : Operand), i.written = some (k, o) →
      ∀ b : Int, b ≠ s.addrOf k o → t.mem.read b = s.mem.read b)

/-- R67, R226: what any storing instruction writes into a word of the next instruction, its instruction
word (j = 0) or a parameter word, is what the next step fetches there. -/
def Obligations.StoreIsSeenByTheNextFetch : Prop :=
  ∀ (s : State) (i : Instr) (k : Nat) (target : Operand) (v : Int) (j : Nat), s.mem.wf →
    s.status = .running → fetchDecode s = .ok i → i.written = some (k, target) →
    (∀ (n : Nat) (o : Operand), i.operands[n]? = some o → Resolves s (n + 1) o) →
    s.storedWord i = some v → j < 4 → s.addrOf k target = s.pc + i.opcode.length + j →
    ∃ t, step s = .next t ∧ t.pc = s.pc + i.opcode.length ∧ t.fetchWords[j]? = some v

/-- R22: memory is never resized, by any step. -/
def Obligations.MemoryIsNeverResized : Prop :=
  ∀ s t : State, step s = .next t → t.mem.len = s.mem.len

/-- R144, R146: a step makes at most one port transaction, and only opcodes 3 and 4 touch a port. -/
def Obligations.OnlyPortInstructionsTouchPorts : Prop :=
  ∀ (s t : State) (i : Instr), exec i s = .next t →
    (i.opcode ≠ .inp → t.input = s.input ∧ ∀ v, t.trace ≠ s.trace ++ [.inEvent v]) ∧
    (i.opcode ≠ .out → t.output = s.output ∧ ∀ v, t.trace ≠ s.trace ++ [.outEvent v]) ∧
    (t.trace = s.trace ∨ ∃ e, t.trace = s.trace ++ [e])

/-- R113: a step that completes as Next does not write the fault record, and a Halt step writes only
the status; no step writes the run's strictness (log 12). -/
def Obligations.StepWritesByOutcome : Prop :=
  ∀ s t : State, s.status = .running → step s = .next t →
    (t.status = .running → t.fault = s.fault) ∧
    (t.status = .halted → t = { s with status := .halted }) ∧ t.strict = s.strict

/-- R191: a faulting step has none of its effects: no memory write, no pc change, no port
transaction; and the record it leaves names the pc and the word of the step (R187, R195). (That no wait
condition stands after it is log 8, DEDUCED.) -/
def Obligations.FaultsArePrecise : Prop :=
  ∀ s t : State, s.status = .running → step s = .next t → t.status = .faulted →
    ∃ f, t = s.faultedWith (s.mem.read s.pc) f

/-- R110: what finished() says, and that it is true exactly when the step halts, stays true after
that, and is false after any fault. -/
def Obligations.FinishedTellsTheHaltStep : Prop :=
  (∀ s : State, finished s = true ↔
    ∃ w : Int, s.mem.read s.pc = some w ∧ 0 ≤ w ∧ w % 100 = 99) ∧
  ∀ s t : State, s.status = .running → step s = .next t →
    (finished s = true ↔ t.status = .halted) ∧
    (t.status = .halted → finished t = true) ∧
    (t.status = .faulted → finished t = false)

/-- R100, R201: a step in Running reports exactly one of Next, Halt, Fault and Wait, as the state
after it says; outside Running the step is a no-op that reports the status (D17), in R201's terms: Halt in
Halted, the fault record in Faulted (log 26). -/
def Obligations.StepReportsItsOutcome : Prop :=
  ∀ s t : State, step s = .next t →
    (s.status = .halted → stepReport s = some .halt) ∧
    (s.status = .faulted → ∀ r, s.fault = some r → stepReport s = some (.fault r)) ∧
    (s.status = .running →
      (t.status = .halted → stepReport s = some .halt) ∧
      (t.status = .faulted → ∃ r, t.fault = some r ∧ stepReport s = some (.fault r)) ∧
      (t.status = .running → t.wait ≠ .none → stepReport s = some (.wait t.wait)) ∧
      (t.status = .running → t.wait = .none → stepReport s = some .next))

/-- R188: the faults an instruction can raise once it is decoded. -/
def Obligations.InstructionRaisesOnlyItsFaults : Prop :=
  ∀ (s t : State) (i : Instr), s.status = .running → exec i s = .next t → t.status = .faulted →
    ∃ f, t.fault = some ⟨s.pc, s.mem.read s.pc, f⟩ ∧ i.MayRaise f

/-- R180: the numeric codes of the six kinds. -/
def Obligations.FaultCodesAreTheTables : Prop :=
  ∀ (pc : Int) (word : Option Int) (k d op : Nat) (w a x y : Int) (site : Site),
    FaultRecord.code ⟨pc, word, .parseError⟩ = 1 ∧
    FaultRecord.code ⟨pc, word, .invalidMode k d⟩ = 2 ∧
    FaultRecord.code ⟨pc, word, .unknownOpcode w⟩ = 3 ∧
    FaultRecord.code ⟨pc, word, .outOfBounds site a⟩ = 4 ∧
    FaultRecord.code ⟨pc, word, .inputUnavailable⟩ = 5 ∧
    FaultRecord.code ⟨pc, word, .overflow op x y⟩ = 6

/-- R207, R59: while a step waits, all architectural state is preserved. -/
def Obligations.WaitingPreservesArchitecturalState : Prop :=
  ∀ s t : State, s.ControlInv → s.status = .running → step s = .next t → t.wait ≠ .none →
    t.mem = s.mem ∧ t.pc = s.pc ∧ t.status = .running ∧ t.fault = s.fault ∧ t.trace = s.trace ∧
      fetchDecode t = fetchDecode s

/-- A delayed answer changes nothing but the time: a suspended Input or Output completes as it would
have had the port been ready (R32). The spec's waiting step makes its one request once (R140); that it is
several steps of the model, one for each moment without an answer, is the model's form (log 6). -/
def Obligations.DelayDoesNotChangeTheOutcome : Prop :=
  (∀ (s : State) (o : Operand), s.status = .running → fetchDecode s = .ok (.inp o) →
    Resolves s 1 o → s.input.pull.1 = .notYet →
    ∃ u, step s = .next u ∧ u.wait = .waitIn ∧ step u = step { s with input := s.input.pull.2 }) ∧
  (∀ (s : State) (o : Operand), s.status = .running → fetchDecode s = .ok (.out o) →
    Resolves s 1 o → s.output.offer.1 = .notYet →
    ∃ u v, step s = .next u ∧ u.wait = .waitOut v ∧
      step u = step { s with output := s.output.offer.2 })

/-- R145: an Input that is never answered, or an Output never accepted, waits for ever, Running and
with nothing else changed but the host's own place in its answers. One moment of waiting is one step of
the model, and the answers are data in State: the model's forms (log 6, log 4, log 5). -/
def Obligations.UnansweredPortIsStuck : Prop :=
  (∀ (s : State) (o : Operand), s.status = .running → fetchDecode s = .ok (.inp o) →
    Resolves s 1 o → (∀ n, (s.input.atMoment n).pull.1 = .notYet) →
    EndsStuck s ∧ ∀ n, 1 ≤ n →
      ReachesIn n s { s with wait := .waitIn, input := s.input.atMoment n }) ∧
  (∀ (s : State) (o : Operand) (v : Int), s.status = .running → fetchDecode s = .ok (.out o) →
    Resolves s 1 o → s.mem.read (s.addrOf 1 o) = some v →
    (∀ n, (s.output.atMoment n).offer.1 = .notYet) →
    EndsStuck s ∧ ∀ n, 1 ≤ n →
      ReachesIn n s { s with wait := .waitOut v, output := s.output.atMoment n })

/-! ## Invariants -/

/-- Every step keeps memory canonical and of legal length, and every word, pc and port value (the one a
waiting Output offers, the source's and the trace's) an i64:
"A value whose computed integer lies outside that range never reaches state" (R13). -/
def Obligations.StepKeepsDataInvariant : Prop :=
  ∀ s t : State, s.DataInv → step s = .next t → t.DataInv

/-- Every step keeps status, fault record and wait condition in agreement (R27, R32, R187). -/
def Obligations.StepKeepsControlInvariant : Prop :=
  ∀ s t : State, s.ControlInv → step s = .next t → t.ControlInv

/-- Every state of every run of every constructed core satisfies the invariant. -/
def Obligations.EveryReachedStateSatisfiesInvariant : Prop :=
  ∀ (image : List Int) (source : InputSource) (sink : OutputSink) (strict : Bool) (s t : State)
    (n : Nat), construct image source sink strict = some s → ReachesIn n s t → t.Inv

/-! ## Runs -/

/-- R26: Halted and Faulted are absorbing, along every run; and a run always goes on to a state. -/
def Obligations.HaltedAndFaultedAbsorb : Prop :=
  ∀ (s : State) (n : Nat), (∃ t, ReachesIn n s t) ∧
    ∀ t, s.status ≠ .running → ReachesIn n s t → t = s

/-- R209: a run ends Halted or Faulted, or is stuck, or hangs, and never two of these. (The fifth end,
Abandoned, is the host's: it issues no further step.) -/
def Obligations.EveryRunEndsInExactlyOneWay : Prop :=
  ∀ s : State, (EndsHalted s ∨ EndsFaulted s ∨ EndsStuck s ∨ Hangs s) ∧
    ¬ (EndsHalted s ∧ EndsFaulted s) ∧ ¬ (EndsHalted s ∧ EndsStuck s) ∧
    ¬ (EndsHalted s ∧ Hangs s) ∧ ¬ (EndsFaulted s ∧ EndsStuck s) ∧
    ¬ (EndsFaulted s ∧ Hangs s) ∧ ¬ (EndsStuck s ∧ Hangs s)

/-- R209: a run that halts has faulted at no step. -/
def Obligations.HaltedRunsAreSafe : Prop :=
  ∀ s : State, EndsHalted s → ∀ n, SafeFor n s

/-- R111, C4: run() returns the same memory, pc and value as the source's loop, which never steps the
Halt word; only the final status differs. Both are taken up to the host's step bound (log 19). -/
def Obligations.RunAgreesWithTheSourceLoop : Prop :=
  ∀ (bound : Nat) (s : State), s.status = .running →
    (∀ u, sourceLoop bound s = some u → ∃ v, u.mem.read 0 = some v ∧
      runFor bound s = (.result v, { u with status := .halted })) ∧
    (∀ v t, runFor bound s = (.result v, t) → ∃ u, sourceLoop bound s = some u ∧
      t = { u with status := .halted } ∧ u.mem.read 0 = some v)

/-- R111, R112: what run() returns when the run has ended, on the state it leaves, within the host's step
bound (log 19). -/
def Obligations.RunReturnsResultOrFault : Prop :=
  ∀ (bound : Nat) (s t : State) (r : RunResult), runFor bound s = (r, t) →
    ReachesIn bound s t ∧
    (∀ v, r = .result v ↔ t.status = .halted ∧ t.mem.read 0 = some v) ∧
    (∀ f, r = .fault f ↔ t.status = .faulted ∧ t.fault = some f)
end

