-- ==== Sys2Proof/Laws/PerInstr.lean ====
section
/-! SUPPORT. Facts about every instruction as syntax, one lemma per constructor. -/

namespace Sys2Proof.Laws.Encoding

/-- An instruction takes as many words as its opcode says (R76, R77), and is what its opcode and its
parameters build. -/
def Statement (i : Instr) : Prop :=
  (encode i).length = i.opcode.length ∧ Instr.build i.opcode i.operands = some i

theorem add (op1 op2 target : Operand) : Statement (.add op1 op2 target) := ⟨rfl, rfl⟩
theorem mul (op1 op2 target : Operand) : Statement (.mul op1 op2 target) := ⟨rfl, rfl⟩
theorem inp (target : Operand) : Statement (.inp target) := ⟨rfl, rfl⟩
theorem out (target : Operand) : Statement (.out target) := ⟨rfl, rfl⟩
theorem jt (cond dest : Operand) : Statement (.jt cond dest) := ⟨rfl, rfl⟩
theorem jf (cond dest : Operand) : Statement (.jf cond dest) := ⟨rfl, rfl⟩
theorem lt (op1 op2 target : Operand) : Statement (.lt op1 op2 target) := ⟨rfl, rfl⟩
theorem eq (op1 op2 target : Operand) : Statement (.eq op1 op2 target) := ⟨rfl, rfl⟩
theorem hlt : Statement .hlt := ⟨rfl, rfl⟩

end Sys2Proof.Laws.Encoding
end

