-- ==== Sys2Proof/Laws/Decode.lean ====
section
/-! SUPPORT. What the parts of the decoder answer: the opcode, a mode digit, a run of mode digits, and
the parameters of an opcode. -/

namespace Sys2Proof

theorem modeOfDigit_ok {k d : Nat} {m : Mode} : modeOfDigit k d = .ok m ↔ d = m.digit := by
  match d with
  | 0 => cases m <;> simp [modeOfDigit, Mode.digit]
  | 1 => cases m <;> simp [modeOfDigit, Mode.digit]
  | _ + 2 => cases m <;> simp [modeOfDigit, Mode.digit]

theorem modeOfDigit_error {k d : Nat} (h : 2 ≤ d) :
    modeOfDigit k d = .error (.invalidMode k d) := by
  match d, h with
  | _ + 2, _ => rfl

theorem Mode.digit_le_one (m : Mode) : m.digit ≤ 1 := by cases m <;> decide

theorem exists_mode_of_le_one {d : Nat} (h : d ≤ 1) : ∃ m : Mode, d = m.digit := by
  match d, h with
  | 0, _ => exact ⟨.position, rfl⟩
  | 1, _ => exact ⟨.immediate, rfl⟩

theorem modesFrom_succ_ok {w k n : Nat} {ms : List Mode} :
    modesFrom w k (n + 1) = .ok ms ↔
      ∃ m rest, digit w (k + 1) = m.digit ∧ modesFrom w (k + 1) n = .ok rest ∧ ms = m :: rest := by
  simp only [modesFrom, bind, Except.bind, pure, Except.pure]
  cases h : modeOfDigit k (digit w (k + 1)) with
  | error e =>
    simp only [reduceCtorEq, false_iff]
    rintro ⟨m, _, hm, -⟩
    rw [modeOfDigit_ok.2 hm] at h
    cases h
  | ok m =>
    have hm := modeOfDigit_ok.1 h
    cases hr : modesFrom w (k + 1) n with
    | error e => simp
    | ok rest =>
      constructor
      · intro e; injection e with e; exact ⟨m, rest, hm, rfl, e.symm⟩
      · rintro ⟨m', rest', hm', hr', rfl⟩
        injection hr' with hr'
        have : Except.ok m = (Except.ok m' : Except DecodeError Mode) :=
          h.symm.trans (modeOfDigit_ok.2 hm')
        injection this with this
        simp [this, hr']

/-- A run of valid digits gives their modes, in order. -/
theorem modesFrom_getElem {w n : Nat} : ∀ {k : Nat} {ms : List Mode}, modesFrom w k n = .ok ms →
    ms.length = n ∧ ∀ (j : Nat) (m : Mode), ms[j]? = some m → digit w (k + j + 1) = m.digit := by
  induction n with
  | zero => intro k ms h; injection h with h; subst h; simp
  | succ n ih =>
    intro k ms h
    obtain ⟨m, rest, hm, hr, rfl⟩ := modesFrom_succ_ok.1 h
    obtain ⟨hl, hd⟩ := ih hr
    refine ⟨by simp [hl], fun j m' hj => ?_⟩
    cases j with
    | zero => simp at hj; subst hj; simpa using hm
    | succ j =>
      have := hd j m' (by simpa using hj)
      rwa [show k + (j + 1) + 1 = k + 1 + j + 1 by omega]

theorem modesFrom_of_le_one {w n : Nat} : ∀ {k : Nat},
    (∀ j, k ≤ j → j < k + n → digit w (j + 1) ≤ 1) → ∃ ms, modesFrom w k n = .ok ms := by
  induction n with
  | zero => intro k _; exact ⟨[], rfl⟩
  | succ n ih =>
    intro k h
    obtain ⟨m, hm⟩ := exists_mode_of_le_one (h k (Nat.le_refl _) (by omega))
    obtain ⟨rest, hr⟩ := ih (k := k + 1) fun j h1 h2 => h j (by omega) (by omega)
    exact ⟨m :: rest, modesFrom_succ_ok.2 ⟨m, rest, hm, hr, rfl⟩⟩

/-- The lowest digit above 1 is the one a run of digits reports. -/
theorem modesFrom_error {w n : Nat} : ∀ {k j : Nat}, k ≤ j → j < k + n → 2 ≤ digit w (j + 1) →
    (∀ i, k ≤ i → i < j → digit w (i + 1) ≤ 1) →
    modesFrom w k n = .error (.invalidMode j (digit w (j + 1))) := by
  induction n with
  | zero => intro k j h1 h2; omega
  | succ n ih =>
    intro k j h1 h2 hbad hok
    simp only [modesFrom, bind, Except.bind]
    by_cases hkj : k = j
    · subst hkj
      rw [modeOfDigit_error hbad]
    · obtain ⟨m, hm⟩ := exists_mode_of_le_one (hok k (Nat.le_refl _) (by omega))
      rw [modeOfDigit_ok.2 hm,
        ih (k := k + 1) (j := j) (by omega) (by omega) hbad fun i h3 h4 => hok i (by omega) h4]

theorem modesFrom_congr {w w' n : Nat} : ∀ {k : Nat},
    (∀ j, k ≤ j → j < k + n → digit w (j + 1) = digit w' (j + 1)) →
    modesFrom w k n = modesFrom w' k n := by
  induction n with
  | zero => intro k _; rfl
  | succ n ih =>
    intro k h
    simp only [modesFrom, h k (Nat.le_refl _) (by omega),
      ih (k := k + 1) fun j h1 h2 => h j (by omega) (by omega)]

/-- A word that decodes so far has a legal opcode and its own parameters' digits valid. -/
theorem decodeHead_ok {strict : Bool} {w : Int} {h : Head} (hd : decodeHead strict w = .ok h) :
    0 ≤ w ∧ opcodeOf w = some h.op ∧ modesFrom w.toNat 1 h.op.nparams = .ok h.modes := by
  unfold decodeHead at hd
  cases ho : opcodeOf w with
  | none => simp [ho] at hd
  | some op =>
    have hw : 0 ≤ w := by
      unfold opcodeOf at ho
      split at ho
      · cases ho
      · omega
    simp only [ho, bind, Except.bind, pure, Except.pure] at hd
    cases hm : modesFrom w.toNat 1 op.nparams with
    | error e => simp [hm] at hd
    | ok ms =>
      simp only [hm] at hd
      have fin : (⟨op, ms⟩ : Head) = h := by
        split at hd
        · cases hs : strictCheck op w.toNat <;> simp [hs] at hd
          exact hd
        · injection hd
      subst fin
      exact ⟨hw, rfl, hm⟩

/-- What an instruction word decodes to, once its opcode is known: the modes of its own parameters,
then the strict checks if they are set. -/
theorem decodeHead_of_opcode {w : Int} {op : Opcode} (ho : opcodeOf w = some op) (strict : Bool) :
    decodeHead strict w =
      match modesFrom w.toNat 1 op.nparams with
      | .error e => .error e
      | .ok ms =>
        if strict then
          match strictCheck op w.toNat with
          | .error e => .error e
          | .ok _ => .ok ⟨op, ms⟩
        else .ok ⟨op, ms⟩ := by
  unfold decodeHead
  simp only [ho, bind, Except.bind, pure, Except.pure]
  cases modesFrom w.toNat 1 op.nparams with
  | error e => rfl
  | ok ms =>
    cases strict with
    | false => rfl
    | true => simp only [if_true]; cases strictCheck op w.toNat <;> rfl

/-- The number of an opcode is one of the nine of R85. -/
theorem Opcode.ofCode_eq_some {c : Nat} {op : Opcode} : Opcode.ofCode c = some op ↔ c = op.code := by
  constructor
  · intro h
    unfold Opcode.ofCode at h
    split at h <;> first | (injection h with h; subst h; rfl) | cases h
  · rintro rfl
    cases op <;> rfl

theorem Opcode.nparams_le (op : Opcode) : op.nparams ≤ 3 := by cases op <;> decide

/-- As many parameters as the opcode has build an instruction. -/
theorem Instr.build_of_length {op : Opcode} {os : List Operand} (h : os.length = op.nparams) :
    ∃ i, Instr.build op os = some i ∧ i.opcode = op ∧ i.operands = os := by
  cases op <;> simp only [Opcode.nparams] at h <;>
    first
    | (obtain ⟨a, b, c, rfl⟩ := List.length_eq_three.1 h; exact ⟨_, rfl, rfl, rfl⟩)
    | (obtain ⟨a, b, rfl⟩ := List.length_eq_two.1 h; exact ⟨_, rfl, rfl, rfl⟩)
    | (obtain ⟨a, rfl⟩ := List.length_eq_one_iff.1 h; exact ⟨_, rfl, rfl, rfl⟩)
    | (obtain rfl := List.eq_nil_of_length_eq_zero h; exact ⟨_, rfl, rfl, rfl⟩)

/-- What is built has the opcode, and exactly the parameters. -/
theorem Instr.build_eq_some {op : Opcode} {os : List Operand} {i : Instr}
    (h : Instr.build op os = some i) : i.opcode = op ∧ i.operands = os := by
  unfold Instr.build at h
  split at h <;> first | (injection h with h; subst h; exact ⟨rfl, rfl⟩) | cases h

end Sys2Proof
end

