-- ==== Sys2Proof/Laws/Memory.lean ====
section
/-! SUPPORT. What memory operations do: reads after writes, the canonical form kept by every one of
them, and the image read back. -/

namespace Sys2Proof.Machine

/-! ## The list of cells -/

theorem canonicalFrom_cons {lo hi a : Nat} {v : Int} {rest : List (Nat × Int)} :
    canonicalFrom lo hi ((a, v) :: rest) = true ↔
      lo ≤ a ∧ a < hi ∧ v ≠ 0 ∧ canonicalFrom (a + 1) hi rest = true := by
  simp [canonicalFrom, and_assoc]

theorem canonicalFrom_mono {lo lo' hi hi' : Nat} (hlo : lo' ≤ lo) (hhi : hi ≤ hi') :
    ∀ {cells : List (Nat × Int)}, canonicalFrom lo hi cells = true →
      canonicalFrom lo' hi' cells = true := by
  intro cells
  induction cells generalizing lo lo' with
  | nil => intro _; rfl
  | cons c rest ih =>
    obtain ⟨a, v⟩ := c
    simp only [canonicalFrom_cons]
    rintro ⟨h1, h2, h3, h4⟩
    exact ⟨by omega, by omega, h3, ih (Nat.le_refl _) h4⟩

/-- Below the first listed address nothing is listed. -/
theorem lookup_below {lo hi a : Nat} {cells : List (Nat × Int)}
    (h : canonicalFrom lo hi cells = true) (ha : a < lo) : lookup cells a = 0 := by
  induction cells generalizing lo with
  | nil => rfl
  | cons c rest ih =>
    obtain ⟨b, v⟩ := c
    obtain ⟨h1, -, -, h4⟩ := canonicalFrom_cons.1 h
    have hne : a ≠ b := by omega
    simp only [lookup, hne, if_false]
    exact ih h4 (by omega)

theorem lookup_put_ne {a b : Nat} (v : Int) (h : b ≠ a) (cells : List (Nat × Int)) :
    lookup (put cells a v) b = lookup cells b := by
  induction cells with
  | nil => simp only [put]; split <;> simp [lookup, h]
  | cons c rest ih =>
    obtain ⟨d, u⟩ := c
    simp only [put]
    split
    · split <;> simp [lookup, h]
    · split
      · next hd => subst hd; split <;> simp [lookup, h]
      · simp only [lookup, ih]

theorem lookup_put_self {lo hi a : Nat} (v : Int) {cells : List (Nat × Int)}
    (h : canonicalFrom lo hi cells = true) : lookup (put cells a v) a = v := by
  induction cells generalizing lo with
  | nil => simp only [put]; split <;> simp_all [lookup]
  | cons c rest ih =>
    obtain ⟨d, u⟩ := c
    obtain ⟨-, -, -, h4⟩ := canonicalFrom_cons.1 h
    simp only [put]
    split
    · next hlt =>
      split
      · next hv =>
        have hne : a ≠ d := by omega
        simp only [lookup, hne, if_false, hv]
        exact lookup_below h4 (by omega)
      · simp [lookup]
    · split
      · next hd =>
        subst hd
        split
        · next hv => rw [hv]; exact lookup_below h4 (by omega)
        · simp [lookup]
      · next hd => simp only [lookup, hd, if_false]; exact ih h4

theorem canonicalFrom_put {lo hi a : Nat} (v : Int) {cells : List (Nat × Int)}
    (h : canonicalFrom lo hi cells = true) (hlo : lo ≤ a) (hhi : a < hi) :
    canonicalFrom lo hi (put cells a v) = true := by
  induction cells generalizing lo with
  | nil =>
    simp only [put]
    split
    · rfl
    · next hv => exact canonicalFrom_cons.2 ⟨hlo, hhi, hv, rfl⟩
  | cons c rest ih =>
    obtain ⟨d, u⟩ := c
    obtain ⟨h1, h2, h3, h4⟩ := canonicalFrom_cons.1 h
    simp only [put]
    split
    · next hlt =>
      split
      · exact h
      · next hv =>
        exact canonicalFrom_cons.2 ⟨hlo, hhi, hv, canonicalFrom_cons.2 ⟨by omega, h2, h3, h4⟩⟩
    · split
      · next hd =>
        subst hd
        split
        · exact canonicalFrom_mono (by omega) (Nat.le_refl _) h4
        · next hv => exact canonicalFrom_cons.2 ⟨hlo, hhi, hv, h4⟩
      · exact canonicalFrom_cons.2 ⟨h1, h2, h3, ih h4 (by omega)⟩

/-- A word of the list after a `put` was there before, or is the word put. -/
theorem mem_put {a : Nat} {v : Int} {c : Nat × Int} {cells : List (Nat × Int)}
    (h : c ∈ put cells a v) : c ∈ cells ∨ c = (a, v) := by
  induction cells with
  | nil =>
    simp only [put] at h
    split at h <;> simp_all
  | cons d rest ih =>
    obtain ⟨d, u⟩ := d
    simp only [put] at h
    split at h
    · split at h
      · exact .inl h
      · exact (List.mem_cons.1 h).symm
    · split at h
      · split at h
        · exact .inl (List.mem_cons_of_mem _ h)
        · exact (List.mem_cons.1 h).symm.imp_left (List.mem_cons_of_mem _)
      · rcases List.mem_cons.1 h with rfl | h
        · simp
        · rcases ih h with h | h <;> simp_all

/-- A word read from the list is one of its words, or 0. -/
theorem lookup_mem (cells : List (Nat × Int)) (a : Nat) :
    lookup cells a = 0 ∨ ∃ c ∈ cells, c.2 = lookup cells a := by
  induction cells with
  | nil => exact .inl rfl
  | cons c rest ih =>
    obtain ⟨b, v⟩ := c
    simp only [lookup]
    split
    · exact .inr ⟨(b, v), by simp, rfl⟩
    · rcases ih with h | ⟨c, hc, h⟩
      · exact .inl h
      · exact .inr ⟨c, by simp [hc], h⟩

/-! ## Reads and writes of memory -/

theorem Memory.read_eq_some {m : Memory} {a v : Int} :
    m.read a = some v ↔ m.inb a ∧ lookup m.cells a.toNat = v := by
  unfold Memory.read
  split
  · next h => exact ⟨fun e => ⟨h, by simpa using e⟩, fun e => by rw [e.2]⟩
  · next h => exact ⟨fun e => by simp at e, fun e => absurd e.1 h⟩

theorem Memory.read_eq_none {m : Memory} {a : Int} : m.read a = none ↔ ¬ m.inb a := by
  unfold Memory.read
  split <;> simp_all

theorem Memory.read_of_inb {m : Memory} {a : Int} (h : m.inb a) : ∃ v, m.read a = some v :=
  ⟨_, Memory.read_eq_some.2 ⟨h, rfl⟩⟩

/-- What `MemWrite` answers and leaves (R52): the whole of it. -/
theorem Memory.write_spec {m : Memory} {a : Int} (v : Int) (h : m.inb a) :
    ∃ m', m.write a v = some m' ∧ m'.len = m.len ∧ m'.cells = put m.cells a.toNat v := by
  unfold Memory.write
  rw [if_pos h]
  exact ⟨_, rfl, rfl, rfl⟩

theorem Memory.write_len {m m' : Memory} {a v : Int} (h : m.write a v = some m') :
    m'.len = m.len := by
  unfold Memory.write at h
  split at h <;> simp_all
  subst h; rfl

theorem Memory.write_inb {m m' : Memory} {a v : Int} (h : m.write a v = some m') : m.inb a := by
  unfold Memory.write at h
  split at h
  · assumption
  · simp at h

theorem Memory.write_wf {m m' : Memory} {a v : Int} (hm : m.wf) (h : m.write a v = some m') :
    m'.wf := by
  have hb := Memory.write_inb h
  obtain ⟨m'', h1, h2, h3⟩ := Memory.write_spec v hb
  obtain rfl : m'' = m' := by simpa [h1] using h
  unfold Memory.wf
  rw [h2, h3]
  exact canonicalFrom_put v hm (Nat.zero_le _) (by have := hb.1; have := hb.2; omega)

theorem Memory.read_write_ne {m m' : Memory} {a b v : Int} (h : m.write a v = some m')
    (hne : b ≠ a) : m'.read b = m.read b := by
  have hb := Memory.write_inb h
  obtain ⟨m'', h1, h2, h3⟩ := Memory.write_spec v hb
  obtain rfl : m'' = m' := by simpa [h1] using h
  unfold Memory.read
  simp only [Memory.inb, h2, h3]
  split
  · next hc =>
    rw [lookup_put_ne]
    have := hb.1
    omega
  · rfl

theorem Memory.read_write_self {m m' : Memory} {a v : Int} (hm : m.wf)
    (h : m.write a v = some m') : m'.read a = some v := by
  have hb := Memory.write_inb h
  obtain ⟨m'', h1, h2, h3⟩ := Memory.write_spec v hb
  obtain rfl : m'' = m' := by simpa [h1] using h
  rw [Memory.read_eq_some]
  refine ⟨by simpa only [Memory.inb, h2] using hb, ?_⟩
  rw [h3]
  exact lookup_put_self v hm

/-- A word memory holds after a write was there before, or is the word written. -/
theorem Memory.mem_write {m m' : Memory} {a v : Int} {c : Nat × Int}
    (h : m.write a v = some m') (hc : c ∈ m'.cells) : c ∈ m.cells ∨ c.2 = v := by
  obtain ⟨m'', h1, -, h3⟩ := Memory.write_spec v (Memory.write_inb h)
  obtain rfl : m'' = m' := by simpa [h1] using h
  rw [h3] at hc
  rcases mem_put hc with h | h
  · exact .inl h
  · exact .inr (by rw [h])

/-! ## Images -/

theorem lookup_imageCells_below {a b : Nat} (h : b < a) (image : List Int) :
    lookup (imageCells a image) b = 0 := by
  induction image generalizing a with
  | nil => rfl
  | cons v vs ih =>
    simp only [imageCells]
    split
    · exact ih (by omega)
    · have : b ≠ a := by omega
      simp only [lookup, this, if_false]
      exact ih (by omega)

theorem lookup_imageCells (image : List Int) (a i : Nat) :
    lookup (imageCells a image) (a + i) = image[i]?.getD 0 := by
  induction image generalizing a i with
  | nil => simp [imageCells, lookup]
  | cons v vs ih =>
    simp only [imageCells]
    cases i with
    | zero =>
      split
      · next hv => simpa [hv] using lookup_imageCells_below (Nat.lt_succ_self a) vs
      · simp [lookup]
    | succ i =>
      have step : lookup (imageCells (a + 1) vs) (a + (i + 1)) = vs[i]?.getD 0 := by
        have := ih (a + 1) i
        rwa [show a + 1 + i = a + (i + 1) by omega] at this
      split
      · simpa using step
      · have : a + (i + 1) ≠ a := by omega
        simpa [lookup, this] using step

theorem canonicalFrom_imageCells (image : List Int) (a hi : Nat) (h : a + image.length ≤ hi) :
    canonicalFrom a hi (imageCells a image) = true := by
  induction image generalizing a with
  | nil => rfl
  | cons v vs ih =>
    simp only [List.length_cons] at h
    have tail := ih (a + 1) (by omega)
    simp only [imageCells]
    split
    · exact canonicalFrom_mono (Nat.le_succ a) (Nat.le_refl _) tail
    · next hv => exact canonicalFrom_cons.2 ⟨Nat.le_refl _, by omega, hv, tail⟩

theorem mem_imageCells {a : Nat} {c : Nat × Int} {image : List Int}
    (h : c ∈ imageCells a image) : c.2 ∈ image := by
  induction image generalizing a with
  | nil => simp [imageCells] at h
  | cons v vs ih =>
    simp only [imageCells] at h
    split at h
    · exact List.mem_cons_of_mem _ (ih h)
    · rcases List.mem_cons.1 h with rfl | h
      · simp
      · exact List.mem_cons_of_mem _ (ih h)

theorem Memory.ofImage_wf (image : List Int) : (Memory.ofImage image).wf :=
  canonicalFrom_imageCells image 0 image.length (by omega)

theorem Memory.ofImage_read (image : List Int) (i : Nat) :
    (Memory.ofImage image).read i = image[i]? := by
  by_cases h : i < image.length
  · rw [List.getElem?_eq_getElem h, Memory.read_eq_some]
    refine ⟨⟨by omega, by simpa [Memory.ofImage] using h⟩, ?_⟩
    have := lookup_imageCells image 0 i
    rw [List.getElem?_eq_getElem h] at this
    simpa [Memory.ofImage] using this
  · rw [List.getElem?_eq_none (by omega), Memory.read_eq_none]
    rintro ⟨-, h2⟩
    simp [Memory.ofImage] at h2
    omega

/-! ## The load from outside -/

theorem Memory.growTo_wf {m : Memory} (len : Nat) (h : m.wf) : (m.growTo len).wf :=
  canonicalFrom_mono (Nat.le_refl _) (Nat.le_max_left _ _) h

theorem Memory.load_wf {m : Memory} (h : m.wf) (ws : List Int) (a : Nat) : (m.load a ws).wf := by
  induction ws generalizing m a with
  | nil => exact h
  | cons v vs ih =>
    simp only [Memory.load]
    split
    · next hw => exact ih (Memory.write_wf h hw) _
    · exact h

/-! ## The words at an address -/

/-- The words at an address are the memory's own, one after the other. -/
theorem Memory.wordsFrom_getElem {m : Memory} {a : Int} {count i : Nat} {v : Int}
    (h : (m.wordsFrom a count)[i]? = some v) : m.read (a + i) = some v := by
  induction count generalizing a i with
  | zero => simp [Memory.wordsFrom] at h
  | succ n ih =>
    simp only [Memory.wordsFrom] at h
    split at h
    · next w hw =>
      cases i with
      | zero => simpa [hw] using h
      | succ i =>
        have := ih (by simpa using h)
        rwa [show a + ((i + 1 : Nat) : Int) = a + 1 + i by push_cast; ring]
    · simp at h

/-- Words that memory holds at an address come first in what is fetched there. -/
theorem Memory.wordsFrom_eq_append {m : Memory} {a : Int} {ws : List Int} {count : Nat}
    (h : ∀ i < ws.length, m.read (a + i) = ws[i]?) (hc : ws.length ≤ count) :
    m.wordsFrom a count = ws ++ m.wordsFrom (a + ws.length) (count - ws.length) := by
  induction ws generalizing a count with
  | nil => simp
  | cons w ws ih =>
    obtain ⟨n, rfl⟩ : ∃ n, count = n + 1 := ⟨count - 1, by simp only [List.length_cons] at hc; omega⟩
    have h0 : m.read a = some w := by simpa using h 0 (by simp)
    have tail := ih (a := a + 1) (count := n)
      (fun i hi => by
        have := h (i + 1) (by simpa using hi)
        rw [show a + ((i + 1 : Nat) : Int) = a + 1 + i by push_cast; ring] at this
        simpa using this)
      (by simpa using hc)
    simp only [Memory.wordsFrom, h0, tail, List.length_cons, List.cons_append, Nat.add_sub_add_right]
    rw [show a + 1 + (ws.length : Int) = a + ((ws.length + 1 : Nat) : Int) by push_cast; ring]

end Sys2Proof.Machine
end

