-- ==== Sys2Proof/Laws/State.lean ====
section
/-! SUPPORT. One lemma per field per update of State, each true by unfolding, so that no later proof
unfolds a record update. -/

namespace Sys2Proof.Machine

variable (s : State)

/-! ### setMem -/

@[simp] theorem State.setMem_mem (m : Memory) : (s.setMem m).mem = m := rfl
@[simp] theorem State.setMem_pc (m : Memory) : (s.setMem m).pc = s.pc := rfl
@[simp] theorem State.setMem_status (m : Memory) : (s.setMem m).status = s.status := rfl
@[simp] theorem State.setMem_fault (m : Memory) : (s.setMem m).fault = s.fault := rfl
@[simp] theorem State.setMem_wait (m : Memory) : (s.setMem m).wait = s.wait := rfl
@[simp] theorem State.setMem_input (m : Memory) : (s.setMem m).input = s.input := rfl
@[simp] theorem State.setMem_output (m : Memory) : (s.setMem m).output = s.output := rfl
@[simp] theorem State.setMem_trace (m : Memory) : (s.setMem m).trace = s.trace := rfl
@[simp] theorem State.setMem_strict (m : Memory) : (s.setMem m).strict = s.strict := rfl

/-! ### setPc -/

@[simp] theorem State.setPc_mem (a : Int) : (s.setPc a).mem = s.mem := rfl
@[simp] theorem State.setPc_pc (a : Int) : (s.setPc a).pc = a := rfl
@[simp] theorem State.setPc_status (a : Int) : (s.setPc a).status = s.status := rfl
@[simp] theorem State.setPc_fault (a : Int) : (s.setPc a).fault = s.fault := rfl
@[simp] theorem State.setPc_wait (a : Int) : (s.setPc a).wait = s.wait := rfl
@[simp] theorem State.setPc_input (a : Int) : (s.setPc a).input = s.input := rfl
@[simp] theorem State.setPc_output (a : Int) : (s.setPc a).output = s.output := rfl
@[simp] theorem State.setPc_trace (a : Int) : (s.setPc a).trace = s.trace := rfl
@[simp] theorem State.setPc_strict (a : Int) : (s.setPc a).strict = s.strict := rfl

/-! ### advance -/

@[simp] theorem State.advance_mem (op : Opcode) : (s.advance op).mem = s.mem := rfl
@[simp] theorem State.advance_pc (op : Opcode) : (s.advance op).pc = s.pc + op.length := rfl
@[simp] theorem State.advance_status (op : Opcode) : (s.advance op).status = s.status := rfl
@[simp] theorem State.advance_fault (op : Opcode) : (s.advance op).fault = s.fault := rfl
@[simp] theorem State.advance_wait (op : Opcode) : (s.advance op).wait = s.wait := rfl
@[simp] theorem State.advance_input (op : Opcode) : (s.advance op).input = s.input := rfl
@[simp] theorem State.advance_output (op : Opcode) : (s.advance op).output = s.output := rfl
@[simp] theorem State.advance_trace (op : Opcode) : (s.advance op).trace = s.trace := rfl
@[simp] theorem State.advance_strict (op : Opcode) : (s.advance op).strict = s.strict := rfl

/-! ### halt -/

@[simp] theorem State.halt_mem : (s.halt).mem = s.mem := rfl
@[simp] theorem State.halt_pc : (s.halt).pc = s.pc := rfl
@[simp] theorem State.halt_status : (s.halt).status = .halted := rfl
@[simp] theorem State.halt_fault : (s.halt).fault = s.fault := rfl
@[simp] theorem State.halt_wait : (s.halt).wait = s.wait := rfl
@[simp] theorem State.halt_input : (s.halt).input = s.input := rfl
@[simp] theorem State.halt_output : (s.halt).output = s.output := rfl
@[simp] theorem State.halt_trace : (s.halt).trace = s.trace := rfl
@[simp] theorem State.halt_strict : (s.halt).strict = s.strict := rfl

/-! ### raise -/

@[simp] theorem State.raise_mem (f : FaultInfo) : (s.raise f).mem = s.mem := rfl
@[simp] theorem State.raise_pc (f : FaultInfo) : (s.raise f).pc = s.pc := rfl
@[simp] theorem State.raise_status (f : FaultInfo) : (s.raise f).status = .faulted := rfl
@[simp] theorem State.raise_fault (f : FaultInfo) : (s.raise f).fault = some (s.faultRecord f) := rfl
@[simp] theorem State.raise_wait (f : FaultInfo) : (s.raise f).wait = .none := rfl
@[simp] theorem State.raise_input (f : FaultInfo) : (s.raise f).input = s.input := rfl
@[simp] theorem State.raise_output (f : FaultInfo) : (s.raise f).output = s.output := rfl
@[simp] theorem State.raise_trace (f : FaultInfo) : (s.raise f).trace = s.trace := rfl
@[simp] theorem State.raise_strict (f : FaultInfo) : (s.raise f).strict = s.strict := rfl

/-! ### consumeInput -/

@[simp] theorem State.consumeInput_mem (v : Int) : (s.consumeInput v).mem = s.mem := rfl
@[simp] theorem State.consumeInput_pc (v : Int) : (s.consumeInput v).pc = s.pc := rfl
@[simp] theorem State.consumeInput_status (v : Int) : (s.consumeInput v).status = s.status := rfl
@[simp] theorem State.consumeInput_fault (v : Int) : (s.consumeInput v).fault = s.fault := rfl
@[simp] theorem State.consumeInput_wait (v : Int) : (s.consumeInput v).wait = .none := rfl
@[simp] theorem State.consumeInput_input (v : Int) : (s.consumeInput v).input = s.input.pull.2 := rfl
@[simp] theorem State.consumeInput_output (v : Int) : (s.consumeInput v).output = s.output := rfl
@[simp] theorem State.consumeInput_trace (v : Int) : (s.consumeInput v).trace = s.trace ++ [.inEvent v] := rfl
@[simp] theorem State.consumeInput_strict (v : Int) : (s.consumeInput v).strict = s.strict := rfl

/-! ### acceptOutput -/

@[simp] theorem State.acceptOutput_mem (v : Int) : (s.acceptOutput v).mem = s.mem := rfl
@[simp] theorem State.acceptOutput_pc (v : Int) : (s.acceptOutput v).pc = s.pc := rfl
@[simp] theorem State.acceptOutput_status (v : Int) : (s.acceptOutput v).status = s.status := rfl
@[simp] theorem State.acceptOutput_fault (v : Int) : (s.acceptOutput v).fault = s.fault := rfl
@[simp] theorem State.acceptOutput_wait (v : Int) : (s.acceptOutput v).wait = .none := rfl
@[simp] theorem State.acceptOutput_input (v : Int) : (s.acceptOutput v).input = s.input := rfl
@[simp] theorem State.acceptOutput_output (v : Int) : (s.acceptOutput v).output = s.output.offer.2 := rfl
@[simp] theorem State.acceptOutput_trace (v : Int) : (s.acceptOutput v).trace = s.trace ++ [.outEvent v] := rfl
@[simp] theorem State.acceptOutput_strict (v : Int) : (s.acceptOutput v).strict = s.strict := rfl

/-! ### suspendInput -/

@[simp] theorem State.suspendInput_mem : (s.suspendInput).mem = s.mem := rfl
@[simp] theorem State.suspendInput_pc : (s.suspendInput).pc = s.pc := rfl
@[simp] theorem State.suspendInput_status : (s.suspendInput).status = s.status := rfl
@[simp] theorem State.suspendInput_fault : (s.suspendInput).fault = s.fault := rfl
@[simp] theorem State.suspendInput_wait : (s.suspendInput).wait = .waitIn := rfl
@[simp] theorem State.suspendInput_input : (s.suspendInput).input = s.input.pull.2 := rfl
@[simp] theorem State.suspendInput_output : (s.suspendInput).output = s.output := rfl
@[simp] theorem State.suspendInput_trace : (s.suspendInput).trace = s.trace := rfl
@[simp] theorem State.suspendInput_strict : (s.suspendInput).strict = s.strict := rfl

/-! ### suspendOutput -/

@[simp] theorem State.suspendOutput_mem (v : Int) : (s.suspendOutput v).mem = s.mem := rfl
@[simp] theorem State.suspendOutput_pc (v : Int) : (s.suspendOutput v).pc = s.pc := rfl
@[simp] theorem State.suspendOutput_status (v : Int) : (s.suspendOutput v).status = s.status := rfl
@[simp] theorem State.suspendOutput_fault (v : Int) : (s.suspendOutput v).fault = s.fault := rfl
@[simp] theorem State.suspendOutput_wait (v : Int) : (s.suspendOutput v).wait = .waitOut v := rfl
@[simp] theorem State.suspendOutput_input (v : Int) : (s.suspendOutput v).input = s.input := rfl
@[simp] theorem State.suspendOutput_output (v : Int) : (s.suspendOutput v).output = s.output.offer.2 := rfl
@[simp] theorem State.suspendOutput_trace (v : Int) : (s.suspendOutput v).trace = s.trace := rfl
@[simp] theorem State.suspendOutput_strict (v : Int) : (s.suspendOutput v).strict = s.strict := rfl

end Sys2Proof.Machine
end

