-- ==== Sys2Proof/Laws/Ops.lean ====
section
/-! SUPPORT. One lemma per shared operation that says everything it can do: the resolver, the guarded
accesses, the commit of a step, and the shapes the instructions share. -/

namespace Sys2Proof.Machine

variable {s t : State}

/-! ## The resolver and the guarded accesses -/

theorem resolve_ok {k : Nat} {o : Operand} {a : Int} :
    resolve s k o = .ok a ↔
      s.mem.inb (s.pc + k) ∧ s.mem.inb (s.addrOf k o) ∧ a = s.addrOf k o := by
  unfold resolve
  split
  · next h1 =>
    split
    · next h2 => exact ⟨fun e => ⟨h1, h2, by injection e with e; exact e.symm⟩, fun e => by rw [e.2.2]⟩
    · next h2 => exact ⟨fun e => (by cases e), fun e => absurd e.2.1 h2⟩
  · next h1 => exact ⟨fun e => (by cases e), fun e => absurd e.1 h1⟩

/-- A parameter faults at its own cell, or at the address it names with its cell in bounds. -/
theorem resolve_error {k : Nat} {o : Operand} {f : FaultInfo} :
    resolve s k o = .error f ↔
      (¬ s.mem.inb (s.pc + k) ∧ f = .outOfBounds (.paramCell k) (s.pc + k)) ∨
      (s.mem.inb (s.pc + k) ∧ ¬ s.mem.inb (s.addrOf k o) ∧
        f = .outOfBounds (.operand k) (s.addrOf k o)) := by
  unfold resolve
  split
  · next h1 =>
    split
    · next h2 =>
      exact ⟨fun e => (by cases e), fun e => e.elim (fun e => absurd h1 e.1) (fun e => absurd h2 e.2.1)⟩
    · next h2 =>
      exact ⟨fun e => .inr ⟨h1, h2, by injection e with e; exact e.symm⟩,
        fun e => e.elim (fun e => absurd h1 e.1) (fun e => by rw [e.2.2])⟩
  · next h1 =>
    exact ⟨fun e => .inl ⟨h1, by injection e with e; exact e.symm⟩,
      fun e => e.elim (fun e => by rw [e.2]) (fun e => absurd e.1 h1)⟩

theorem resolve_of_inb {k : Nat} {o : Operand} (h1 : s.mem.inb (s.pc + k))
    (h2 : s.mem.inb (s.addrOf k o)) : resolve s k o = .ok (s.addrOf k o) :=
  resolve_ok.2 ⟨h1, h2, rfl⟩

theorem memRead_of_read {k : Nat} {a v : Int} (h : s.mem.read a = some v) :
    memRead s k a = .ok v := by
  simp [memRead, h]

theorem memRead_ok {k : Nat} {a v : Int} : memRead s k a = .ok v ↔ s.mem.read a = some v := by
  unfold memRead
  cases s.mem.read a <;> simp

theorem memRead_error {k : Nat} {a : Int} {f : FaultInfo} (h : memRead s k a = .error f) :
    f = .outOfBounds (.operand k) a := by
  unfold memRead at h
  cases hr : s.mem.read a <;> simp_all

theorem memWrite_of_write {k : Nat} {a v : Int} {m : Memory} (h : s.mem.write a v = some m) :
    memWrite s k a v = .ok (s.setMem m) := by
  simp [memWrite, h]

theorem memWrite_ok {k : Nat} {a v : Int} :
    memWrite s k a v = .ok t ↔ ∃ m, s.mem.write a v = some m ∧ t = s.setMem m := by
  unfold memWrite
  cases s.mem.write a v <;> simp [eq_comm]

theorem memWrite_error {k : Nat} {a v : Int} {f : FaultInfo} (h : memWrite s k a v = .error f) :
    f = .outOfBounds (.operand k) a := by
  unfold memWrite at h
  cases hr : s.mem.write a v <;> simp_all

/-! ## The ports' hosts -/

@[simp] theorem Answers.next_cons {Reply : Type} (free : Nat → Nat → Reply) (r : Reply)
    (rest : List Reply) (after : Tail Reply) :
    Answers.next free ⟨r :: rest, after⟩ = (r, ⟨rest, after⟩) := rfl

@[simp] theorem Answers.next_repeating {Reply : Type} (free : Nat → Nat → Reply) (r : Reply)
    (rest : List Reply) :
    Answers.next free ⟨[], .repeating r rest⟩ = (r, ⟨rest, .repeating r rest⟩) := rfl

@[simp] theorem Answers.next_stream {Reply : Type} (free : Nat → Nat → Reply) (id pos : Nat) :
    Answers.next free ⟨[], .stream id pos⟩ = (free id pos, ⟨[], .stream id (pos + 1)⟩) := rfl

/-- A property of every listed and every free reply holds of the next one, and of those listed then. -/
theorem Answers.next_forall {Reply : Type} {p : Reply → Bool} {free : Nat → Nat → Reply}
    (hfree : ∀ id pos, p (free id pos) = true) {host : Answers Reply}
    (h : host.listed.all p = true) :
    p (host.next free).1 = true ∧ (host.next free).2.listed.all p = true := by
  obtain ⟨script, after⟩ := host
  cases script with
  | cons r rest =>
    cases after <;> simpa [Answers.listed, and_assoc] using h
  | nil =>
    cases after with
    | repeating r rest =>
      have h : p r = true ∧ rest.all p = true := by simpa [Answers.listed] using h
      simp only [next_repeating, Answers.listed, List.all_append, List.all_cons, h.1, h.2]
      exact ⟨trivial, rfl⟩
    | stream id pos => exact ⟨hfree id pos, rfl⟩

/-- Every answer of a free input stream is one of R140's. -/
theorem InReply.inRange_ofStream (id pos : Nat) : (InReply.ofStream id pos).inRange = true := by
  unfold InReply.ofStream
  split
  · assumption
  · rfl

/-- A source of R140 answers as R140 says, and stays one. -/
theorem InputSource.pull_inRange {src : InputSource} (h : src.InRange) :
    src.pull.1.inRange = true ∧ src.pull.2.InRange :=
  Answers.next_forall InReply.inRange_ofStream h

/-! ## The commit of a step -/

@[simp] theorem commit_ok : commit s (.ok t) = .next t := rfl

@[simp] theorem commit_error (f : FaultInfo) : commit s (.error f) = .next (s.raise f) := rfl

/-- A step commits what the instruction computed, or takes its fault; it never stops the model. -/
theorem commit_next {r : Except FaultInfo State} :
    commit s r = .next t ↔ r = .ok t ∨ ∃ f, r = .error f ∧ t = s.raise f := by
  cases r <;> simp [commit, eq_comm]

/-- A chain of computations that succeeds, taken apart. -/
theorem bind_ok {α β : Type} {x : Except FaultInfo α} {g : α → Except FaultInfo β} {b : β} :
    (x >>= g) = .ok b ↔ ∃ a, x = .ok a ∧ g a = .ok b := by
  cases x <;> simp [bind, Except.bind]

/-- A chain of computations that faults: the first part does, or it succeeds and the rest does. -/
theorem bind_error {α β : Type} {x : Except FaultInfo α} {g : α → Except FaultInfo β}
    {f : FaultInfo} :
    (x >>= g) = .error f ↔ x = .error f ∨ ∃ a, x = .ok a ∧ g a = .error f := by
  cases x <;> simp [bind, Except.bind]

theorem pure_ok {α : Type} {a b : α} : (pure a : Except FaultInfo α) = .ok b ↔ a = b := by
  constructor
  · intro h; injection h
  · rintro rfl; rfl

theorem pure_ne_error {α : Type} {a : α} {f : FaultInfo} : (pure a : Except FaultInfo α) ≠ .error f := by
  intro h; cases h

/-! ## The shapes of the instructions -/

/-- A data instruction whose parameters resolve: what its function answers is written and pc moves
on, or its fault is taken. -/
theorem dataOp_resolved {op : Opcode} {f : Int → Int → Except FaultInfo Int} {o1 o2 o3 : Operand}
    {x y : Int}
    (h1 : resolve s 1 o1 = .ok (s.addrOf 1 o1)) (h2 : resolve s 2 o2 = .ok (s.addrOf 2 o2))
    (h3 : resolve s 3 o3 = .ok (s.addrOf 3 o3))
    (hx : s.mem.read (s.addrOf 1 o1) = some x) (hy : s.mem.read (s.addrOf 2 o2) = some y) :
    (∀ r, f x y = .ok r → ∃ m, s.mem.write (s.addrOf 3 o3) r = some m ∧
      dataOp op f o1 o2 o3 s = .next ((s.setMem m).advance op)) ∧
    (∀ e, f x y = .error e → dataOp op f o1 o2 o3 s = .next (s.raise e)) := by
  constructor
  · intro r hr
    obtain ⟨m, hm, -⟩ := Memory.write_spec r (resolve_ok.1 h3).2.1
    refine ⟨m, hm, ?_⟩
    simp [dataOp, resolve3, h1, h2, h3, memRead_of_read hx, memRead_of_read hy, hr,
      memWrite_of_write hm, bind, Except.bind, pure, Except.pure]
  · intro e he
    simp [dataOp, resolve3, h1, h2, h3, memRead_of_read hx, memRead_of_read hy, he,
      bind, Except.bind, pure, Except.pure]

/-- Everything a data instruction can do. -/
theorem dataOp_cases {op : Opcode} {f : Int → Int → Except FaultInfo Int} {o1 o2 o3 : Operand}
    (h : dataOp op f o1 o2 o3 s = .next t) :
    (∃ x y r m, s.mem.inb (s.pc + 3) ∧ s.mem.read (s.addrOf 1 o1) = some x ∧
      s.mem.read (s.addrOf 2 o2) = some y ∧ f x y = .ok r ∧ s.mem.write (s.addrOf 3 o3) r = some m ∧ t = (s.setMem m).advance op) ∨
    ∃ e, t = s.raise e ∧
      ((∃ k, 1 ≤ k ∧ k ≤ 3 ∧ ∃ site a, e = .outOfBounds site a ∧
          (site = .paramCell k ∨ site = .operand k)) ∨ ∃ x y, f x y = .error e) := by
  rcases commit_next.1 h with h | ⟨e, he, rfl⟩
  · left
    simp only [resolve3, bind_ok, pure_ok] at h
    obtain ⟨_, ⟨a1, h1, a2, h2, a3, h3, rfl⟩, x, hx, y, hy, r, hr, u, hu, rfl⟩ := h
    obtain ⟨m, hm, rfl⟩ := memWrite_ok.1 hu
    rw [(resolve_ok.1 h1).2.2] at hx
    rw [(resolve_ok.1 h2).2.2] at hy
    rw [(resolve_ok.1 h3).2.2] at hm
    exact ⟨x, y, r, m, (resolve_ok.1 h3).1, memRead_ok.1 hx, memRead_ok.1 hy, hr, hm, rfl⟩
  · refine .inr ⟨e, rfl, ?_⟩
    have param : ∀ {k : Nat} {o : Operand}, 1 ≤ k → k ≤ 3 → resolve s k o = .error e →
        ∃ k, 1 ≤ k ∧ k ≤ 3 ∧ ∃ site a, e = .outOfBounds site a ∧
          (site = .paramCell k ∨ site = .operand k) := fun {k} _ h1 h3 he => by
      rcases resolve_error.1 he with ⟨-, rfl⟩ | ⟨-, -, rfl⟩
      · exact ⟨k, h1, h3, _, _, rfl, .inl rfl⟩
      · exact ⟨k, h1, h3, _, _, rfl, .inr rfl⟩
    simp only [resolve3, bind_error, bind_ok, pure_ok] at he
    rcases he with (h | ⟨_, -, h | ⟨_, -, h | ⟨_, -, h⟩⟩⟩) | ⟨_, -, h | ⟨x, -, h | ⟨y, -, h | ⟨r, -, h⟩⟩⟩⟩
    · exact .inl (param (by omega) (by omega) h)
    · exact .inl (param (by omega) (by omega) h)
    · exact .inl (param (by omega) (by omega) h)
    · exact absurd h pure_ne_error
    · exact .inl ⟨1, by omega, by omega, _, _, memRead_error h, .inr rfl⟩
    · exact .inl ⟨2, by omega, by omega, _, _, memRead_error h, .inr rfl⟩
    · exact .inr ⟨x, y, h⟩
    · rcases h with h | ⟨_, -, h⟩
      · exact .inl ⟨3, by omega, by omega, _, _, memWrite_error h, .inr rfl⟩
      · exact absurd h pure_ne_error

/-- A jump whose parameters resolve. -/
theorem jumpOp_resolved {op : Opcode} {taken : Int → Bool} {o1 o2 : Operand} {c d : Int}
    (h1 : resolve s 1 o1 = .ok (s.addrOf 1 o1)) (h2 : resolve s 2 o2 = .ok (s.addrOf 2 o2))
    (hc : s.mem.read (s.addrOf 1 o1) = some c) (hd : s.mem.read (s.addrOf 2 o2) = some d) :
    jumpOp op taken o1 o2 s = .next (if taken c then s.setPc d else s.advance op) := by
  simp [jumpOp, resolve2, h1, h2, memRead_of_read hc, memRead_of_read hd,
    bind, Except.bind, pure, Except.pure]

/-- Everything a jump can do. -/
theorem jumpOp_cases {op : Opcode} {taken : Int → Bool} {o1 o2 : Operand}
    (h : jumpOp op taken o1 o2 s = .next t) :
    (∃ c d, s.mem.inb (s.pc + 2) ∧ s.mem.read (s.addrOf 1 o1) = some c ∧
      s.mem.read (s.addrOf 2 o2) = some d ∧ t = if taken c then s.setPc d else s.advance op) ∨
    ∃ e, t = s.raise e ∧ ∃ k, 1 ≤ k ∧ k ≤ 2 ∧ ∃ site a, e = .outOfBounds site a ∧
      (site = .paramCell k ∨ site = .operand k) := by
  rcases commit_next.1 h with h | ⟨e, he, rfl⟩
  · left
    simp only [resolve2, bind_ok, pure_ok] at h
    obtain ⟨_, ⟨a1, h1, a2, h2, rfl⟩, c, hc, d, hd, rfl⟩ := h
    rw [(resolve_ok.1 h1).2.2] at hc
    have hp := (resolve_ok.1 h2).1
    rw [(resolve_ok.1 h2).2.2] at hd
    exact ⟨c, d, hp, memRead_ok.1 hc, memRead_ok.1 hd, rfl⟩
  · refine .inr ⟨e, rfl, ?_⟩
    have param : ∀ {k : Nat} {o : Operand}, 1 ≤ k → k ≤ 2 → resolve s k o = .error e →
        ∃ k, 1 ≤ k ∧ k ≤ 2 ∧ ∃ site a, e = .outOfBounds site a ∧
          (site = .paramCell k ∨ site = .operand k) := fun {k} _ h1 h2 he => by
      rcases resolve_error.1 he with ⟨-, rfl⟩ | ⟨-, -, rfl⟩
      · exact ⟨k, h1, h2, _, _, rfl, .inl rfl⟩
      · exact ⟨k, h1, h2, _, _, rfl, .inr rfl⟩
    simp only [resolve2, bind_error, bind_ok, pure_ok] at he
    rcases he with (h | ⟨_, -, h | ⟨_, -, h⟩⟩) | ⟨_, -, h | ⟨_, -, h | ⟨_, -, h⟩⟩⟩
    · exact param (by omega) (by omega) h
    · exact param (by omega) (by omega) h
    · exact absurd h pure_ne_error
    · exact ⟨1, by omega, by omega, _, _, memRead_error h, .inr rfl⟩
    · exact ⟨2, by omega, by omega, _, _, memRead_error h, .inr rfl⟩
    · exact absurd h pure_ne_error

/-- Everything Input can do. -/
theorem execInp_cases {o : Operand} (h : execInp o s = .next t) :
    (∃ v m, s.input.pull.1 = .value v ∧ s.mem.inb (s.pc + 1) ∧ s.mem.write (s.addrOf 1 o) v = some m ∧
      t = ((s.setMem m).consumeInput v).advance .inp) ∨
    (s.input.pull.1 = .notYet ∧ s.mem.inb (s.pc + 1) ∧ s.mem.inb (s.addrOf 1 o) ∧
      t = s.suspendInput) ∨
    ∃ e, t = s.raise e ∧ (e = .inputUnavailable ∨ e = .parseError ∨
      ∃ site a, e = .outOfBounds site a ∧ (site = .paramCell 1 ∨ site = .operand 1)) := by
  rcases commit_next.1 h with h | ⟨e, he, rfl⟩
  · obtain ⟨a, ha, h⟩ := bind_ok.1 h
    obtain ⟨hc, hb, rfl⟩ := resolve_ok.1 ha
    cases hp : s.input.pull.1 with
    | value v =>
      simp only [hp, bind_ok, pure_ok] at h
      obtain ⟨u, hu, rfl⟩ := h
      obtain ⟨m, hm, rfl⟩ := memWrite_ok.1 hu
      exact .inl ⟨v, m, rfl, hc, hm, rfl⟩
    | exhausted => simp [hp] at h
    | malformed => simp [hp] at h
    | notYet =>
      simp only [hp, pure_ok] at h
      exact .inr (.inl ⟨rfl, hc, hb, h.symm⟩)
  · refine .inr (.inr ⟨e, rfl, ?_⟩)
    rcases bind_error.1 he with h | ⟨a, -, h⟩
    · rcases resolve_error.1 h with ⟨-, rfl⟩ | ⟨-, -, rfl⟩
      · exact .inr (.inr ⟨_, _, rfl, .inl rfl⟩)
      · exact .inr (.inr ⟨_, _, rfl, .inr rfl⟩)
    · cases hp : s.input.pull.1 with
      | value v =>
        simp only [hp, bind_error] at h
        rcases h with h | ⟨_, -, h⟩
        · exact .inr (.inr ⟨_, _, memWrite_error h, .inr rfl⟩)
        · exact absurd h pure_ne_error
      | exhausted => simp only [hp] at h; injection h with h; exact .inl h.symm
      | malformed => simp only [hp] at h; injection h with h; exact .inr (.inl h.symm)
      | notYet => simp only [hp] at h; exact absurd h pure_ne_error

/-- Everything Output can do. -/
theorem execOut_cases {o : Operand} (h : execOut o s = .next t) :
    (∃ v, s.output.offer.1 = .accept ∧ s.mem.inb (s.pc + 1) ∧ s.mem.read (s.addrOf 1 o) = some v ∧
      t = (s.acceptOutput v).advance .out) ∨
    (∃ v, s.output.offer.1 = .notYet ∧ s.mem.inb (s.pc + 1) ∧
      s.mem.read (s.addrOf 1 o) = some v ∧ t = s.suspendOutput v) ∨
    ∃ e, t = s.raise e ∧
      ∃ site a, e = .outOfBounds site a ∧ (site = .paramCell 1 ∨ site = .operand 1) := by
  rcases commit_next.1 h with h | ⟨e, he, rfl⟩
  · simp only [bind_ok] at h
    obtain ⟨a, ha, v, hv, h⟩ := h
    obtain ⟨hc, -, rfl⟩ := resolve_ok.1 ha
    cases hp : s.output.offer.1 with
    | accept =>
      simp only [hp, pure_ok] at h
      exact .inl ⟨v, rfl, hc, memRead_ok.1 hv, h.symm⟩
    | notYet =>
      simp only [hp, pure_ok] at h
      exact .inr (.inl ⟨v, rfl, hc, memRead_ok.1 hv, h.symm⟩)
  · refine .inr (.inr ⟨e, rfl, ?_⟩)
    simp only [bind_error] at he
    rcases he with h | ⟨a, -, h | ⟨v, -, h⟩⟩
    · rcases resolve_error.1 h with ⟨-, rfl⟩ | ⟨-, -, rfl⟩
      · exact ⟨_, _, rfl, .inl rfl⟩
      · exact ⟨_, _, rfl, .inr rfl⟩
    · exact ⟨_, _, memRead_error h, .inr rfl⟩
    · cases hp : s.output.offer.1 <;> simp only [hp] at h <;> exact absurd h pure_ne_error

end Sys2Proof.Machine
end

