-- ==== Sys2Proof/Laws/Step.lean ====
section
/-! SUPPORT. Everything an instruction and a step can do, said once. -/

namespace Sys2Proof.Machine

variable {s t : State}

/-- Executing an instruction always gives a next state: every fault is taken. -/
theorem exec_answers_next (i : Instr) (s : State) : ∃ t, exec i s = .next t := by
  have total : ∀ r : Except FaultInfo State, ∃ t, commit s r = .next t := fun r => by
    cases r <;> exact ⟨_, rfl⟩
  cases i with
  | hlt => exact ⟨_, rfl⟩
  | _ => exact total _

theorem InRange_truthWord (b : Bool) : InRange (truthWord b) := by cases b <;> decide

theorem exactOrOverflow_ok {op : Opcode} {x y r v : Int} (h : exactOrOverflow op x y r = .ok v) :
    InRange r ∧ v = r := by
  unfold exactOrOverflow at h
  split at h
  · next hr => exact ⟨hr, by injection h with h; exact h.symm⟩
  · cases h

theorem exactOrOverflow_error {op : Opcode} {x y r : Int} {f : FaultInfo}
    (h : exactOrOverflow op x y r = .error f) : ¬ InRange r ∧ f = .overflow op.code x y := by
  unfold exactOrOverflow at h
  split at h
  · cases h
  · next hr => exact ⟨hr, by injection h with h; exact h.symm⟩

/-- What executing an instruction can leave, with what the checks before it established. -/
inductive Effect (s : State) : Instr → State → Prop where
  | fault {i : Instr} (f : FaultInfo) (hi : i ≠ .hlt) : Effect s i (s.raise f)
  | data {i : Instr} {target : Operand} {r : Int} {m : Memory} (hn : i.opcode.nparams = 3)
      (ho : i.operands[2]? = some target) (hp : s.mem.inb (s.pc + 3)) (hr : InRange r)
      (hm : s.mem.write (s.addrOf 3 target) r = some m) :
      Effect s i ((s.setMem m).advance i.opcode)
  | jump {i : Instr} {a d : Int} (hn : i.opcode.nparams = 2) (hp : s.mem.inb (s.pc + 2))
      (hd : s.mem.read a = some d) : Effect s i (s.setPc d)
  | noJump {i : Instr} (hn : i.opcode.nparams = 2) (hp : s.mem.inb (s.pc + 2)) :
      Effect s i (s.advance i.opcode)
  | input {target : Operand} {v : Int} {m : Memory} (hv : s.input.pull.1 = .value v)
      (hp : s.mem.inb (s.pc + 1)) (hm : s.mem.write (s.addrOf 1 target) v = some m) :
      Effect s (.inp target) (((s.setMem m).consumeInput v).advance .inp)
  | waitIn {target : Operand} (hv : s.input.pull.1 = .notYet) (hp : s.mem.inb (s.pc + 1)) :
      Effect s (.inp target) s.suspendInput
  | output {target : Operand} {v : Int} (ha : s.output.offer.1 = .accept)
      (hp : s.mem.inb (s.pc + 1)) (hv : s.mem.read (s.addrOf 1 target) = some v) :
      Effect s (.out target) ((s.acceptOutput v).advance .out)
  | waitOut {target : Operand} {v : Int} (ha : s.output.offer.1 = .notYet)
      (hp : s.mem.inb (s.pc + 1)) (hv : s.mem.read (s.addrOf 1 target) = some v) :
      Effect s (.out target) (s.suspendOutput v)
  | halt : Effect s .hlt s.halt

/-- A data instruction's effect, from its cases. -/
theorem dataOp_effect {i : Instr} {f : Int → Int → Except FaultInfo Int} {o1 o2 o3 : Operand}
    (hn : i.opcode.nparams = 3) (ho : i.operands[2]? = some o3)
    (hf : ∀ x y r, f x y = .ok r → InRange r) (h : dataOp i.opcode f o1 o2 o3 s = .next t) :
    Effect s i t := by
  rcases dataOp_cases h with ⟨x, y, r, m, hp, -, -, hr, hm, rfl⟩ | ⟨e, rfl, -⟩
  · exact .data hn ho hp (hf x y r hr) hm
  · exact .fault e (by rintro rfl; cases hn)

/-- A jump's effect, from its cases. -/
theorem jumpOp_effect {i : Instr} {taken : Int → Bool} {o1 o2 : Operand}
    (hn : i.opcode.nparams = 2) (h : jumpOp i.opcode taken o1 o2 s = .next t) : Effect s i t := by
  rcases jumpOp_cases h with ⟨c, d, hp, -, hd, rfl⟩ | ⟨e, rfl, -⟩
  · split
    · exact .jump hn hp hd
    · exact .noJump hn hp
  · exact .fault e (by rintro rfl; cases hn)

/-- Everything an instruction can do. -/
theorem exec_effect {i : Instr} (h : exec i s = .next t) : Effect s i t := by
  have exact_ : ∀ {op : Opcode} {x y r v : Int}, exactOrOverflow op x y r = .ok v → InRange v :=
    fun h => by obtain ⟨h, rfl⟩ := exactOrOverflow_ok h; exact h
  have truth : ∀ {b : Bool} {v : Int},
      (Except.ok (truthWord b) : Except FaultInfo Int) = .ok v → InRange v :=
    fun h => by injection h with h; rw [← h]; exact InRange_truthWord _
  cases i with
  | add o1 o2 o3 => exact dataOp_effect (i := .add o1 o2 o3) rfl rfl (fun _ _ _ => exact_) h
  | mul o1 o2 o3 => exact dataOp_effect (i := .mul o1 o2 o3) rfl rfl (fun _ _ _ => exact_) h
  | lt o1 o2 o3 => exact dataOp_effect (i := .lt o1 o2 o3) rfl rfl (fun _ _ _ => truth) h
  | eq o1 o2 o3 => exact dataOp_effect (i := .eq o1 o2 o3) rfl rfl (fun _ _ _ => truth) h
  | jt o1 o2 => exact jumpOp_effect (i := .jt o1 o2) rfl h
  | jf o1 o2 => exact jumpOp_effect (i := .jf o1 o2) rfl h
  | inp o =>
    rcases execInp_cases h with ⟨v, m, hv, hp, hm, rfl⟩ | ⟨hv, hp, -, rfl⟩ | ⟨e, rfl, -⟩
    · exact .input hv hp hm
    · exact .waitIn hv hp
    · exact .fault e (by simp)
  | out o =>
    rcases execOut_cases h with ⟨v, ha, hp, hv, rfl⟩ | ⟨v, ha, hp, hv, rfl⟩ | ⟨e, rfl, -⟩
    · exact .output ha hp hv
    · exact .waitOut ha hp hv
    · exact .fault e (by simp)
  | hlt =>
    obtain rfl : s.halt = t := by injection h
    exact .halt

/-- The step of a core that is not Running. -/
theorem step_ended (h : s.status ≠ .running) : step s = .next s := by
  unfold step
  cases hs : s.status <;> simp_all

theorem step_decoded {i : Instr} (h : s.status = .running) (hi : fetchDecode s = .ok i) :
    step s = exec i s := by
  simp [step, h, hi]

theorem step_undecoded {f : FaultInfo} (h : s.status = .running)
    (hf : fetchDecode s = .error f) : step s = .next (s.raise f) := by
  simp [step, h, hf]

/-- The three things a step can be. -/
theorem step_cases (h : step s = .next t) :
    (s.status ≠ .running ∧ t = s) ∨
    (s.status = .running ∧ ∃ f, fetchDecode s = .error f ∧ t = s.raise f) ∨
    (s.status = .running ∧ ∃ i, fetchDecode s = .ok i ∧ exec i s = .next t) := by
  by_cases hr : s.status = .running
  · cases hd : fetchDecode s with
    | error f =>
      rw [step_undecoded hr hd] at h
      exact .inr (.inl ⟨hr, f, rfl, by injection h with h; exact h.symm⟩)
    | ok i =>
      rw [step_decoded hr hd] at h
      exact .inr (.inr ⟨hr, i, rfl, h⟩)
  · rw [step_ended hr] at h
    exact .inl ⟨hr, by injection h with h; exact h.symm⟩

/-- A step always gives a next state. -/
theorem step_answers_next (s : State) : ∃ t, step s = .next t := by
  by_cases hr : s.status = .running
  · cases hd : fetchDecode s with
    | error f => exact ⟨_, step_undecoded hr hd⟩
    | ok i => rw [step_decoded hr hd]; exact exec_answers_next i s
  · exact ⟨s, step_ended hr⟩

/-- What is fetched and decoded depends on memory, pc and the strictness only. -/
theorem fetchDecode_congr (hm : t.mem = s.mem) (hp : t.pc = s.pc) (hs : t.strict = s.strict) :
    fetchDecode t = fetchDecode s := by
  have fetch : t.fetchWords = s.fetchWords := by simp only [State.fetchWords, hm, hp]
  have addr : ∀ k o, t.addrOf k o = s.addrOf k o := fun k o => by
    unfold State.addrOf
    cases o.mode <;> simp [hp]
  have res : ∀ k o, resolve t k o = resolve s k o := fun k o => by
    simp only [resolve, addr, hm, hp]
  have resFrom : ∀ os k, resolveFrom t k os = resolveFrom s k os := fun os => by
    induction os with
    | nil => intro k; rfl
    | cons o os ih => intro k; simp only [resolveFrom, res, ih]
  have fault : ∀ e, decodeFault t e = decodeFault s e := fun e => by
    cases e <;> simp only [decodeFault, truncatedFault, resFrom, hp]
  simp only [fetchDecode, fetch, hs, fault]

end Sys2Proof.Machine
end

