-- ==== Sys2Proof/Laws/Run.lean ====
section
/-! SUPPORT. Runs of the host's machine, step by step, and the induction over them packaged once. -/

namespace Sys2Proof.Machine

variable {s t u : State} {n : Nat}

theorem reachesIn_zero : ReachesIn 0 s t ↔ t = s := by
  constructor
  · intro h; injection h with h; exact h.symm
  · rintro rfl; rfl

theorem reachesIn_succ (h : step s = .next u) : ReachesIn (n + 1) s t ↔ ReachesIn n u t := by
  have h' : Sys2Proof.core.step s = .next u := h
  simp only [ReachesIn, Host.Core.run, h']

theorem reachesIn_unique (h : ReachesIn n s t) (h' : ReachesIn n s u) : t = u := by
  rw [ReachesIn, h] at h'
  injection h'

/-- What holds at the start and is kept by every step holds of every state reached. -/
theorem reachesIn_induct {P : State → Prop} (keep : ∀ s t, P s → step s = .next t → P t)
    (h0 : P s) (h : ReachesIn n s t) : P t := by
  induction n generalizing s with
  | zero => rw [reachesIn_zero.1 h]; exact h0
  | succ n ih =>
    obtain ⟨u, hu⟩ := step_answers_next s
    exact ih (keep _ _ h0 hu) ((reachesIn_succ hu).1 h)

end Sys2Proof.Machine
end

