-- ==== Sys2Proof/Tests/Slice0.lean ====
section
/-! SUPPORT. The model's own tests: instruction words written out from R70 and R87, the vectors of
spec/95_test_vectors.md (cited by their ids), and for every statement with hypotheses a witness that
meets them. -/

namespace Sys2Proof.Tests

open Sys2Proof Sys2Proof.Machine

/-- The reset state of R220 with this image; no input, a sink that accepts. -/
def st (image : List Int) : State := { State.reset with mem := Memory.ofImage image }

/-- The same with these replies at the input port, and the one it answers after them for ever. -/
def stIn (image : List Int) (script : List InReply) (atEnd : InReply) : State :=
  { st image with input := ⟨script, .repeating atEnd []⟩ }

/-- The same with these replies at the output port. -/
def stOut (image : List Int) (script : List OutReply) (atEnd : OutReply) : State :=
  { st image with output := ⟨script, .repeating atEnd []⟩ }

/-- The outcome is a next state of which `p` holds. -/
def nextHas (o : Host.Outcome State Fault Refusal) (p : State → Bool) : Bool :=
  match o with
  | .next t => p t
  | .fault _ => false
  | .refused _ => false

/-- The step faulted with this record, and left memory and pc as they were. -/
def faults (s : State) (word : Option Int) (f : FaultInfo) : Bool :=
  nextHas (step s) fun t =>
    t.status == .faulted && t.fault == some ⟨s.pc, word, f⟩ && t.mem == s.mem && t.pc == s.pc

/-- The decoder's answer is this instruction and these words after it. -/
def decodesTo (strict : Bool) (ws : List Int) (i : Instr) (rest : List Int) : Bool :=
  match decode strict ws with
  | .ok (j, r) => j == i && r == rest
  | .error _ => false

/-- The instruction word decodes to this head. -/
def headIs (strict : Bool) (w : Int) (h : Head) : Bool :=
  match decodeHead strict w with
  | .ok g => g == h
  | .error _ => false

/-- The instruction at pc is this. -/
def fetches (s : State) (i : Instr) : Bool :=
  match fetchDecode s with
  | .ok j => j == i
  | .error _ => false

/-! ## The well-formedness check refuses what is ill formed -/

theorem test_wellFormed_accepts_bounds :
    (Instr.lt ⟨.position, -9223372036854775808⟩ ⟨.immediate, 9223372036854775807⟩ ⟨.position, 0⟩).WellFormed := by
  decide
theorem test_wellFormed_refuses_above : ¬ (Instr.inp ⟨.position, 9223372036854775808⟩).WellFormed := by decide
theorem test_wellFormed_refuses_below :
    ¬ (Instr.jt ⟨.immediate, 1⟩ ⟨.immediate, -9223372036854775809⟩).WellFormed := by decide

/-! ## Decoding: words written out from R70 and R87 -/

theorem test_decode_add : decodesTo false [10101, -7, 5, 9, 42]
    (.add ⟨.immediate, -7⟩ ⟨.position, 5⟩ ⟨.immediate, 9⟩) [42] := by decide
theorem test_decode_mul : decodesTo false [1002, 4, 3, 4]
    (.mul ⟨.position, 4⟩ ⟨.immediate, 3⟩ ⟨.position, 4⟩) [] := by decide
theorem test_decode_in : decodesTo false [103, 5] (.inp ⟨.immediate, 5⟩) [] := by decide
theorem test_decode_out : decodesTo false [20004, 0] (.out ⟨.position, 0⟩) [] := by decide
theorem test_decode_jt : decodesTo true [1005, 9, 0] (.jt ⟨.position, 9⟩ ⟨.immediate, 0⟩) [] := by decide
theorem test_decode_jf : decodesTo false [106, 0, 4] (.jf ⟨.immediate, 0⟩ ⟨.position, 4⟩) [] := by decide
theorem test_decode_lt : decodesTo false [11107, 3, 5, 0]
    (.lt ⟨.immediate, 3⟩ ⟨.immediate, 5⟩ ⟨.immediate, 0⟩) [] := by decide
theorem test_decode_eq : decodesTo false [8, 7, 6, 0]
    (.eq ⟨.position, 7⟩ ⟨.position, 6⟩ ⟨.position, 0⟩) [] := by decide
theorem test_decode_hlt : decodesTo true [12399, 1] .hlt [1] := by decide
/-- R88: `add #100, #-1, [4]` assembles to 1101, 100, -1, 4. -/
theorem test_encode_add : encode (.add ⟨.immediate, 100⟩ ⟨.immediate, -1⟩ ⟨.position, 4⟩) = [1101, 100, -1, 4] := by
  decide
/-- The opcode table's row for out, match 4, in the host's numbering: all operand words 0. -/
theorem test_decodeTableWord_out : decodeTableWord 8 4 = some (.out ⟨.position, 0⟩) := by decide
/-- Two words: 104, then −7 as a 64-bit field. -/
theorem test_decodeTableWord_two_words :
    decodeTableWord 128 (104 + (2 ^ 64 - 7) * 2 ^ 64) = some (.out ⟨.immediate, -7⟩) := by decide
theorem test_withFetchWord_runs_out :
    nextHas (step (State.reset.withFetchWord 8 4)) fun t => t.trace == [.outEvent 4] && t.pc == 2 := by decide

/-! ## Decoder vectors: V-DEC of spec/95 section 2.1 -/

theorem test_vdec4_minus_one_is_unknown : faults (st [-1]) (some (-1)) (.unknownOpcode (-1)) := by decide
theorem test_vdec9_opcode_before_mode : faults (st [210]) (some 210) (.unknownOpcode 210) := by decide
theorem test_vdec8_lowest_mode_first : faults (st [1201, 0, 0, 0, 99]) (some 1201) (.invalidMode 1 2) := by decide
theorem test_vdec10_param_cell :
    faults (st [1, 0, 0]) (some 1) (.outOfBounds (.paramCell 3) 3) := by decide
theorem test_vdec11_negative_operand :
    faults (st [1, -1, 0, 0, 99]) (some 1) (.outOfBounds (.operand 1) (-1)) := by decide
/-- R106: the operand of parameter 1 is checked before the missing cell of parameter 2. -/
theorem test_operand_before_next_cell :
    faults (st [1, -1]) (some 1) (.outOfBounds (.operand 1) (-1)) := by decide
theorem test_vdec18_empty_memory : faults (st []) none (.outOfBounds .fetch 0) := by decide
theorem test_vdec20_strict :
    faults { st [20004, 0, 99] with strict := true } (some 20004) (.invalidMode 3 2) := by decide
theorem test_vdec21_strict_high :
    faults { st [100001, 0, 0, 0, 99] with strict := true } (some 100001) (.invalidMode 4 1) := by decide

/-! ## Instruction vectors: V-ALU, V-IO, V-CTL and L1 of spec/95 -/

theorem test_l16_add_immediate : nextHas (step (st [1101, 100, -1, 4, 0])) fun t =>
    t.mem == Memory.ofImage [1101, 100, -1, 4, 99] && t.pc == 4 && finished t := by decide
theorem test_valu3_add_overflow : faults (st [1, 5, 6, 0, 99, 9223372036854775807, 1]) (some 1)
    (.overflow 1 9223372036854775807 1) := by decide
theorem test_valu11_mul_min : nextHas (step (st [2, 5, 6, 0, 99, -4294967296, 2147483648])) fun t =>
    t.mem.read 0 == some (-9223372036854775808) && t.status == .running := by decide
theorem test_valu9_mul_overflow : faults (st [2, 5, 6, 0, 99, -9223372036854775808, -1]) (some 2)
    (.overflow 2 (-9223372036854775808) (-1)) := by decide
theorem test_valu15_lt_signed : nextHas (step (st [7, 5, 6, 0, 99, -1, 0])) fun t =>
    t.mem.read 0 == some 1 && t.pc == 4 := by decide
theorem test_valu14_lt_strict : nextHas (step (st [7, 5, 6, 0, 99, 5, 5])) fun t =>
    t.mem.read 0 == some 0 && t.pc == 4 := by decide
theorem test_valu19_eq_sign : nextHas (step (st [8, 5, 6, 0, 99, 5, -5])) fun t => t.mem.read 0 == some 0 := by
  decide
theorem test_valu23_eq : nextHas (step (st [1108, 7, 7, 0, 99])) fun t =>
    t.mem == Memory.ofImage [1, 7, 7, 0, 99] := by decide
theorem test_vio4_in_own_cell : nextHas (step (stIn [103, 0, 99] [.value (-5)] .exhausted)) fun t =>
    t.mem == Memory.ofImage [103, -5, 99] && t.pc == 2 && t.trace == [.inEvent (-5)] := by decide
theorem test_vio5_input_not_consumed : nextHas (step (stIn [3, 7, 99] [.value 1] .exhausted)) fun t =>
    t.fault == some ⟨0, some 3, .outOfBounds (.operand 1) 7⟩ && t.input.script == [.value 1] := by decide
theorem test_vio7_out_immediate : nextHas (step (st [104, -7, 99])) fun t =>
    t.trace == [.outEvent (-7)] && t.pc == 2 && t.mem == Memory.ofImage [104, -7, 99] := by decide
theorem test_vctl1_jt_taken : nextHas (step (st [1105, 7, 4, 0, 99])) fun t => t.pc == 4 := by decide
theorem test_vctl4_jt_checks_untaken :
    faults (st [5, 3, 50, 0, 99]) (some 5) (.outOfBounds (.operand 2) 50) := by decide
theorem test_vctl8_jf_minus_one : nextHas (step (st [1106, -1, 0, 99])) fun t => t.pc == 3 := by decide
theorem test_vctl9_jf_negative_target : nextHas (step (st [1106, 0, -5])) fun t =>
    t.pc == -5 && t.status == .running := by decide
theorem test_vdec15_hlt_ignores_digits : nextHas (step (st [12399])) fun t =>
    t.status == .halted && t.pc == 0 && result t == some 12399 := by decide

/-- A source that answers 1, 2, 1, 2, … without end (R140; log 4). -/
theorem test_unending_source_alternates :
    [0, 1, 2, 3].map (fun n => (InputSource.atMoment n ⟨[], .repeating (.value 1) [.value 2]⟩).pull.1) =
      [.value 1, .value 2, .value 1, .value 2] := by decide

/-! ## The spec's notation: R88, R89, R90 -/

/-- P6's first line with a label: `add #1, #1, [4]`. -/
theorem test_assemble_labels : Asm.assemble
    [⟨none, some (.instr .add [⟨.immediate, .int 1⟩, ⟨.immediate, .int 1⟩, ⟨.position, .label "x"⟩])⟩,
      ⟨some "x", some (.jmp ⟨.immediate, .label "x"⟩)⟩] = some [1101, 1, 1, 4, 1105, 1, 4] := by decide
/-- R90: off the path, and at an illegal word, only `.word`. -/
theorem test_listing : Asm.listing false [0, 2, 3] 9 0 [104, -7, 99, 9, 99] =
    [.instr .out [⟨.immediate, .int (-7)⟩], .instr .hlt [], .word [9], .word [99]] := by decide

/-! ## Witnesses: the hypotheses of each statement can be met -/

theorem witness_ConstructEstablishesResetState :
    [-9223372036854775808, 9223372036854775807].length ≤ Config.maxMemLen ∧
      (∀ w ∈ [(-9223372036854775808 : Int), 9223372036854775807], InRange w) ∧
      InputSource.InRange ⟨[.value 9223372036854775807], .repeating (.value (-9223372036854775808)) [.malformed]⟩ ∧
      InputSource.InRange ⟨[.notYet], .stream 0 0⟩ := by decide

theorem witness_ConstructRefusesOutOfRangeArguments :
    2 ^ 63 - 4 < (List.replicate (2 ^ 63 - 3) (0 : Int)).length ∧
      ¬ InputSource.InRange ⟨[], .repeating .notYet [.value 9223372036854775808]⟩ := by
  rw [List.length_replicate]; decide

theorem witness_ConstructSatisfiesInvariant :
    (construct [3, 0, 99] ⟨[.value 9223372036854775807], .stream 3 0⟩ ⟨[], .stream 0 0⟩ false).isSome := by
  decide

/-- For DecodeOfEncodeIsTheInstruction and EncodedWordsAreWords. -/
theorem witness_EncodedInstructions :
    (Instr.eq ⟨.position, -9223372036854775808⟩ ⟨.immediate, 9223372036854775807⟩ ⟨.immediate, 0⟩).WellFormed ∧
      Instr.hlt.WellFormed := by decide

theorem witness_LowestBadModeDigitIsReported :
    (opcodeOf 1201 = some .add ∧ 2 ≤ digit (1201 : Int).toNat 2) ∧
    (opcodeOf 91101 = some .add ∧ 2 ≤ digit (91101 : Int).toNat 4 ∧
      ∀ j, j < 3 → 1 ≤ j → digit (91101 : Int).toNat (j + 1) ≤ 1) := by decide

theorem witness_UnusedDigitsAreIgnoredByDefault :
    opcodeOf 20104 = some .out ∧ (0 : Int) ≤ 7104 ∧ (20104 : Int) % 100 = 7104 % 100 ∧
      ∀ k, k < 2 → 1 ≤ k → digit (20104 : Int).toNat (k + 1) = digit (7104 : Int).toNat (k + 1) := by decide

theorem witness_StrictSettingChecksTheOtherDigits :
    (opcodeOf 20004 = some .out ∧ digit (20004 : Int).toNat 2 ≤ 1 ∧
      2 ≤ digit (20004 : Int).toNat 4 ∧ digit (20004 : Int).toNat 3 ≤ 1) ∧
    (opcodeOf 100001 = some .add ∧ (100001 : Int).toNat / 100000 ≠ 0 ∧
      ∀ k, k < 4 → 1 ≤ k → digit (100001 : Int).toNat (k + 1) ≤ 1) ∧
    (opcodeOf 11104 = some .out ∧ (11104 : Int).toNat / 100000 = 0 ∧
      ∀ k, k < 4 → 1 ≤ k → digit (11104 : Int).toNat (k + 1) ≤ 1) ∧
    opcodeOf 299 = some .hlt := by decide

theorem witness_DisassemblyReassembles :
    (Asm.Stmt.jmp ⟨.immediate, .label "l"⟩).words [("l", 7)] = some [1105, 1, 7] ∧
      (Asm.Stmt.word []).words [] = some [] := by decide

theorem witness_CanonicalMemoriesReadingAlikeAreEqual :
    ∃ m m' : Memory, m.wf ∧ m'.wf ∧ m.len = m'.len ∧ m.cells ≠ [] ∧ ∀ a : Int, m.read a = m'.read a :=
  ⟨Memory.ofImage [1, 0, 2], ⟨3, [(0, 1), (2, 2)]⟩, by decide, by decide, by decide, by decide,
    fun _ => rfl⟩

theorem witness_MemoryAccessIsBoundsChecked :
    (st [5, 0, 7]).mem.wf ∧ (st [5, 0, 7]).mem.inb 0 ∧ (st [5, 0, 7]).mem.inb 2 ∧
      ¬ (st [5, 0, 7]).mem.inb (-1) ∧ ¬ (st [5, 0, 7]).mem.inb 3 := by decide

theorem witness_HaltWritesOnlyStatus : (0 : Int) ≤ 12399 ∧ (12399 : Int) % 100 = 99 := by decide

theorem witness_StepOutsideRunningChangesNothing :
    (st [99]).halt.status = .halted ∧ ((st [0]).raise (.unknownOpcode 0)).status = .faulted := by decide

theorem witness_StepRunsDecodedInstruction :
    (st [1101, 100, -1, 4, 0]).status = .running ∧
      decodesTo (st [1101, 100, -1, 4, 0]).strict (st [1101, 100, -1, 4, 0]).fetchWords
        (.add ⟨.immediate, 100⟩ ⟨.immediate, -1⟩ ⟨.position, 4⟩) [] := by decide

theorem witness_StepRunsInstructionEncodedAtPc :
    (st [1005, 9, 0]).status = .running ∧ (Instr.jt ⟨.position, 9⟩ ⟨.immediate, 0⟩).WellFormed ∧
      ∀ j : Nat, j < (encode (.jt ⟨.position, 9⟩ ⟨.immediate, 0⟩)).length →
        (st [1005, 9, 0]).mem.read ((st [1005, 9, 0]).pc + j) =
          (encode (.jt ⟨.position, 9⟩ ⟨.immediate, 0⟩))[j]? := by decide

theorem witness_FetchDecodeReadsTheInstructionAtPc :
    (st [101, 5, 6, 0, 99, 20, 22]).mem.read 0 = some 101 ∧
      headIs false 101 ⟨.add, [.immediate, .position, .position]⟩ ∧
      ∀ k : Nat, k < 4 → (st [101, 5, 6, 0, 99, 20, 22]).mem.inb (0 + k) := by decide

theorem witness_WithFetchWordRunsTheWord :
    State.reset.mem.wf ∧ State.reset.strict = Config.strictModeDigits ∧
      decodeTableWord 64 99 = some .hlt ∧ (decodeTableWord 256 11101).isSome := by decide

theorem witness_FetchReadsThePcOrFaults :
    State.reset.status = .running ∧ ¬ (0 ≤ State.reset.pc ∧ State.reset.pc < State.reset.mem.len) ∧
      ¬ (0 ≤ ((st [99]).setPc (-1)).pc ∧ ((st [99]).setPc (-1)).pc < (st [99]).mem.len) ∧
      ¬ (0 ≤ ((st [99]).setPc 1).pc ∧ ((st [99]).setPc 1).pc < (st [99]).mem.len) ∧
      (0 ≤ (st [99]).pc ∧ (st [99]).pc < (st [99]).mem.len) := by decide

theorem witness_IllegalWordFaultsUnknownOpcode :
    (st [-1]).mem.read (st [-1]).pc = some (-1) ∧ (st [9]).mem.read (st [9]).pc = some 9 ∧
      (st [100]).mem.read 0 = some 100 ∧ (st [100]).status = .running := by decide

/-- Clause 1 on the last word of memory, the strict clauses on a lacking parameter's digit and above. -/
theorem witness_BadModeDigitFaultsInvalidMode :
    ((st [1201]).status = .running ∧ (st [1201]).mem.read (st [1201]).pc = some 1201 ∧
      opcodeOf 1201 = some .add ∧ 2 ≤ digit (1201 : Int).toNat (1 + 1)) ∧
    (({ st [20004] with strict := true } : State).strict = true ∧ (st [20004]).status = .running ∧
      (st [20004]).mem.read 0 = some 20004 ∧ opcodeOf 20004 = some .out ∧
      2 ≤ digit (20004 : Int).toNat (3 + 1) ∧
      ∀ j, j < 3 → 1 ≤ j → digit (20004 : Int).toNat (j + 1) ≤ 1) ∧
    ((st [100001]).mem.read 0 = some 100001 ∧ opcodeOf 100001 = some .add ∧
      (100001 : Int).toNat / 100000 ≠ 0 ∧
      ∀ j, j < 4 → 1 ≤ j → digit (100001 : Int).toNat (j + 1) ≤ 1) := by decide

/-- Clause 1 on the last missing cell, clause 2 on the address just past memory. -/
theorem witness_FirstUnresolvedParameterFaults :
    (headIs false 1 ⟨.add, [.position, .position, .position]⟩ ∧ (st [1, 0, 0]).status = .running ∧
      (st [1, 0, 0]).mem.read 0 = some 1 ∧ ¬ (st [1, 0, 0]).mem.inb (0 + (3 : Nat)) ∧
      ∀ j : Nat, j < 3 → 1 ≤ j → (st [1, 0, 0]).mem.inb (0 + j) ∧
        (st [1, 0, 0]).mem.inb ((st [1, 0, 0]).specAddr 1 j)) ∧
    ((st [1, 0, 0, 5, 99]).mem.read 0 = some 1 ∧ (st [1, 0, 0, 5, 99]).mem.inb (0 + (3 : Nat)) ∧
      (∀ j : Nat, j < 3 → 1 ≤ j → (st [1, 0, 0, 5, 99]).mem.inb (0 + j) ∧
        (st [1, 0, 0, 5, 99]).mem.inb ((st [1, 0, 0, 5, 99]).specAddr 1 j)) ∧
      ¬ (st [1, 0, 0, 5, 99]).mem.inb ((st [1, 0, 0, 5, 99]).specAddr 1 3)) := by decide

/-- The operands of the four data instructions at pc 0 of this image: M[5] = x, M[6] = y. -/
abbrev dataHyp (x y : Int) : Prop :=
  (st [1, 5, 6, 0, 99, x, y]).mem.wf ∧
    Resolves (st [1, 5, 6, 0, 99, x, y]) 1 ⟨.position, 5⟩ ∧
    Resolves (st [1, 5, 6, 0, 99, x, y]) 2 ⟨.position, 6⟩ ∧
    Resolves (st [1, 5, 6, 0, 99, x, y]) 3 ⟨.immediate, 0⟩ ∧
    (st [1, 5, 6, 0, 99, x, y]).mem.read ((st [1, 5, 6, 0, 99, x, y]).addrOf 1 ⟨.position, 5⟩) = some x ∧
    (st [1, 5, 6, 0, 99, x, y]).mem.read ((st [1, 5, 6, 0, 99, x, y]).addrOf 2 ⟨.position, 6⟩) = some y

theorem witness_AddStoresTheExactSumOrOverflows :
    (dataHyp 9223372036854775807 0 ∧ InRange (9223372036854775807 + 0)) ∧
      (dataHyp 9223372036854775807 1 ∧ ¬ InRange (9223372036854775807 + 1)) := by decide

theorem witness_MultiplyStoresTheExactProductOrOverflows :
    (dataHyp (-4294967296) 2147483648 ∧ InRange (-4294967296 * 2147483648)) ∧
      (dataHyp 4294967296 2147483648 ∧ ¬ InRange (4294967296 * 2147483648)) := by decide

theorem witness_LessThanStoresOneOrZero :
    dataHyp (-9223372036854775808) 9223372036854775807 ∧ dataHyp 5 5 := by decide

theorem witness_EqualsStoresOneOrZero : dataHyp 0 0 ∧ dataHyp 5 (-5) := by decide

/-- The Input at pc 0 of `[3, 0, 99]`, whose port answers `r`. -/
abbrev inputHyp (s : State) (r : InReply) : Prop :=
  s.mem.wf ∧ Resolves s 1 ⟨.position, 0⟩ ∧ s.input.pull.1 = r

/-- The four replies, and a target just past memory. -/
theorem witness_InputFollowsItsPort :
    inputHyp (stIn [3, 0, 99] [.value 42] .exhausted) (.value 42) ∧
      inputHyp (stIn [3, 0, 99] [] .exhausted) .exhausted ∧
      inputHyp (stIn [3, 0, 99] [.malformed] .exhausted) .malformed ∧
      inputHyp (stIn [3, 0, 99] [] .notYet) .notYet ∧
      ¬ Resolves (stIn [3, 3, 99] [.value 42] .exhausted) 1 ⟨.position, 3⟩ := by decide

/-- The Output at pc 0 of `[4, 0, 99]`, whose port answers `r`. -/
abbrev outputHyp (s : State) (r : OutReply) : Prop :=
  Resolves s 1 ⟨.position, 0⟩ ∧ s.mem.read (s.addrOf 1 ⟨.position, 0⟩) = some 4 ∧
    s.output.offer.1 = r

theorem witness_OutputOffersItsOperand :
    outputHyp (stOut [4, 0, 99] [] .accept) .accept ∧
      outputHyp (stOut [4, 0, 99] [.notYet] .accept) .notYet ∧
      ¬ Resolves (st [4, 3, 99]) 1 ⟨.position, 3⟩ ∧ ¬ Resolves (st [4]) 1 ⟨.position, 0⟩ := by decide

/-- The operands of the two jumps at pc 0 of this image, both Immediate: cond c, target d. -/
abbrev jumpHyp (c d : Int) : Prop :=
  Resolves (st [1105, c, d]) 1 ⟨.immediate, c⟩ ∧ Resolves (st [1105, c, d]) 2 ⟨.immediate, d⟩ ∧
    (st [1105, c, d]).mem.read ((st [1105, c, d]).addrOf 1 ⟨.immediate, c⟩) = some c ∧
    (st [1105, c, d]).mem.read ((st [1105, c, d]).addrOf 2 ⟨.immediate, d⟩) = some d

/-- The jump at pc 0 of this image, whose second parameter names the address just past memory. -/
abbrev jumpUnresolved (s : State) : Prop :=
  Resolves s 1 ⟨.immediate, 0⟩ ∧ s.mem.inb (s.pc + 2) ∧ ¬ s.mem.inb (s.addrOf 2 ⟨.position, 3⟩)

theorem witness_JumpIfTrueJumpsOnNonzero :
    jumpHyp (-1) 0 ∧ jumpHyp 0 50 ∧ jumpUnresolved (st [105, 0, 3]) := by decide

theorem witness_JumpIfFalseJumpsOnZero :
    jumpHyp 0 0 ∧ jumpHyp (-1) 0 ∧ jumpUnresolved (st [106, 0, 3]) := by decide

/-- Targets just past memory and below 0. -/
theorem witness_JumpTargetsAreAbsoluteAndUnchecked :
    (jumpHyp 1 3 ∧ ¬ ((0 : Int) ≤ 3 ∧ (3 : Int) < (st [1105, 1, 3]).mem.len)) ∧
      (jumpHyp 0 (-1) ∧ ¬ ((0 : Int) ≤ -1 ∧ (-1 : Int) < (st [1105, 0, -1]).mem.len)) ∧
      (st [1105, 1, 3]).status = .running := by decide

theorem witness_UnresolvedOperandFaultsInExecute :
    (Instr.add ⟨.position, 0⟩ ⟨.position, 0⟩ ⟨.position, 0⟩).operands[2]? = some ⟨.position, 0⟩ ∧
      Resolves (st [1, 0, 0]) 1 ⟨.position, 0⟩ ∧ Resolves (st [1, 0, 0]) 2 ⟨.position, 0⟩ ∧
      ¬ (st [1, 0, 0]).mem.inb ((st [1, 0, 0]).pc + ((2 + 1 : Nat) : Int)) ∧
      (st [4, 2]).mem.inb ((st [4, 2]).pc + ((0 + 1 : Nat) : Int)) ∧
      ¬ (st [4, 2]).mem.inb ((st [4, 2]).addrOf 1 ⟨.position, 2⟩) := by decide

/-- A storing and a non-storing execution that complete, for the whole-machine statements. -/
theorem witness_OnlyTheWrittenCellChanges :
    (Instr.inp ⟨.position, 0⟩).written = some (1, ⟨.position, 0⟩) ∧
      nextHas (exec (.inp ⟨.position, 0⟩) (stIn [3, 0, 99] [.value 42] .exhausted)) (fun t => t.status == .running) ∧
      (Instr.out ⟨.position, 0⟩).written = none ∧
      nextHas (exec (.out ⟨.position, 0⟩) (st [4, 0, 99])) (fun t => t.status == .running) := by decide

/-- The instruction at pc of `s` resolves and writes `v` into word `j` of the one after it. -/
abbrev storeHyp (s : State) (i : Instr) (k : Nat) (o : Operand) (v : Int) (j : Nat) : Prop :=
  s.mem.wf ∧ s.status = .running ∧ fetches s i ∧ i.written = some (k, o) ∧
    (∀ n, n < i.operands.length → ∀ p ∈ i.operands[n]?, Resolves s (n + 1) p) ∧
    s.storedWord i = some v ∧ j < 4 ∧ s.addrOf k o = s.pc + i.opcode.length + j

/-- P6's first step, whose store turns the Add at 4 into a Multiply; and an Input into the last
parameter word of the next instruction. -/
theorem witness_StoreIsSeenByTheNextFetch :
    storeHyp (st [1101, 1, 1, 4, 1, 9, 10, 11, 99, 6, 7, 0])
      (.add ⟨.immediate, 1⟩ ⟨.immediate, 1⟩ ⟨.position, 4⟩) 3 ⟨.position, 4⟩ 2 0 ∧
    storeHyp (stIn [3, 5, 1, 0, 0, 0, 99] [.value 7] .exhausted) (.inp ⟨.position, 5⟩) 1 ⟨.position, 5⟩
      7 3 := by decide

theorem witness_MemoryIsNeverResized : ∃ s t, s.mem.len = 5 ∧ step s = .next t :=
  ⟨st [1101, 1, 1, 0, 99], _, rfl, (step_answers_next _).choose_spec⟩

theorem witness_OnlyPortInstructionsTouchPorts :
    nextHas (exec .hlt (st [99])) (fun t => t.trace == []) ∧
      nextHas (exec (.out ⟨.immediate, 5⟩) (st [104, 5])) (fun t => t.trace == [.outEvent 5]) := by decide

/-- Each outcome of a step in Running is reached: Next, Halt, Fault, Wait (for StepWritesByOutcome,
FaultsArePrecise and FinishedTellsTheHaltStep). -/
theorem witness_StepOutcomes :
    (nextHas (step (st [1105, 0, 50, 99])) fun t => t.status == .running && t.wait == .none) ∧
      (nextHas (step (st [99])) fun t => t.status == .halted) ∧
      (nextHas (step (st [0])) fun t => t.status == .faulted) ∧
      (nextHas (step (stOut [4, 0, 99] [] .notYet)) fun t => t.status == .running && t.wait == .waitOut 4) := by
  decide

theorem witness_StepReportsItsOutcome :
    stepReport (st [1105, 0, 50, 99]) = some .next ∧ stepReport (st [99]) = some .halt ∧
      stepReport (stIn [3, 0, 99] [] .notYet) = some (.wait .waitIn) ∧
      stepReport (st [9]) = some (.fault ⟨0, some 9, .unknownOpcode 9⟩) ∧
      stepReport (st [99]).halt = some .halt ∧
      stepReport ((st [9]).raise (.unknownOpcode 9)) = some (.fault ⟨0, some 9, .unknownOpcode 9⟩) := by
  decide

theorem witness_InstructionRaisesOnlyItsFaults :
    (st [3, 0, 99]).status = .running ∧
      nextHas (exec (.inp ⟨.position, 0⟩) (st [3, 0, 99])) (fun t => t.status == .faulted) := by decide

/-- The control invariant of a Running state that does not wait. -/
theorem controlInv_of_plain {s : State} (h1 : s.status = .running) (h2 : s.fault = none)
    (h3 : s.wait = .none) : s.ControlInv :=
  ⟨by simp [h1, h2], by simp [h2], by simp [h3], by simp [h3], by simp [h3]⟩

theorem witness_WaitingPreservesArchitecturalState :
    (stIn [3, 0, 99] [] .notYet).ControlInv ∧
      nextHas (step (stIn [3, 0, 99] [] .notYet)) (fun t => t.wait != .none) :=
  ⟨controlInv_of_plain rfl rfl rfl, by decide⟩

theorem witness_DelayDoesNotChangeTheOutcome :
    (stIn [3, 0, 99] [.notYet, .value 1] .exhausted).status = .running ∧
      (stIn [3, 0, 99] [.notYet, .value 1] .exhausted).input.pull.1 = .notYet ∧
      fetches (stIn [3, 0, 99] [.notYet, .value 1] .exhausted) (.inp ⟨.position, 0⟩) ∧
      Resolves (stIn [3, 0, 99] [.notYet, .value 1] .exhausted) 1 ⟨.position, 0⟩ ∧
      (stOut [104, 5] [.notYet] .accept).status = .running ∧
      (stOut [104, 5] [.notYet] .accept).output.offer.1 = .notYet ∧
      fetches (stOut [104, 5] [.notYet] .accept) (.out ⟨.immediate, 5⟩) ∧
      Resolves (stOut [104, 5] [.notYet] .accept) 1 ⟨.immediate, 5⟩ := by decide

/-- A host that never answers: the same at every moment. -/
theorem input_never_answers (n : Nat) :
    InputSource.atMoment n ⟨[], .repeating .notYet []⟩ = ⟨[], .repeating .notYet []⟩ := by
  induction n with
  | zero => rfl
  | succ n ih => exact ih

theorem output_never_accepts (n : Nat) :
    OutputSink.atMoment n ⟨[], .repeating .notYet []⟩ = ⟨[], .repeating .notYet []⟩ := by
  induction n with
  | zero => rfl
  | succ n ih => exact ih

theorem witness_UnansweredPortIsStuck :
    ((stIn [3, 0, 99] [] .notYet).status = .running ∧
      fetches (stIn [3, 0, 99] [] .notYet) (.inp ⟨.position, 0⟩) ∧
      Resolves (stIn [3, 0, 99] [] .notYet) 1 ⟨.position, 0⟩ ∧
      ∀ n, ((stIn [3, 0, 99] [] .notYet).input.atMoment n).pull.1 = .notYet) ∧
    ((stOut [104, 5] [] .notYet).status = .running ∧
      fetches (stOut [104, 5] [] .notYet) (.out ⟨.immediate, 5⟩) ∧
      Resolves (stOut [104, 5] [] .notYet) 1 ⟨.immediate, 5⟩ ∧
      (stOut [104, 5] [] .notYet).mem.read ((stOut [104, 5] [] .notYet).addrOf 1 ⟨.immediate, 5⟩) = some 5 ∧
      ∀ n, ((stOut [104, 5] [] .notYet).output.atMoment n).offer.1 = .notYet) :=
  ⟨⟨by decide, by decide, by decide, fun n => congrArg (fun h => (InputSource.pull h).1) (input_never_answers n)⟩,
    ⟨by decide, by decide, by decide, by decide,
      fun n => congrArg (fun h => (OutputSink.offer h).1) (output_never_accepts n)⟩⟩

theorem witness_StepKeepsDataInvariant :
    ∃ s t : State, s.DataInv ∧ step s = .next t ∧ s.mem.len = 5 :=
  ⟨st [1101, 1, 1, 0, 99], _,
    ⟨by decide, by decide, by decide, by decide, by simp [st, State.reset], by decide, by simp [st, State.reset]⟩,
    (step_answers_next _).choose_spec, rfl⟩

theorem witness_StepKeepsControlInvariant :
    ∃ s t : State, s.ControlInv ∧ step s = .next t ∧ s.status = .running :=
  ⟨stIn [3, 0, 99] [] .notYet, _, controlInv_of_plain rfl rfl rfl, (step_answers_next _).choose_spec, rfl⟩

theorem witness_EveryReachedStateSatisfiesInvariant :
    ∃ s t, construct [99] ⟨[], .repeating .exhausted []⟩ ⟨[], .repeating .accept []⟩ false = some s ∧ ReachesIn 1 s t := by
  obtain ⟨t, ht⟩ := step_answers_next (st [99])
  exact ⟨st [99], t, if_pos (by decide), (reachesIn_succ ht).2 (reachesIn_zero.2 rfl)⟩

theorem witness_HaltedAndFaultedAbsorb :
    ∃ s t, s.status = .halted ∧ ReachesIn 1 s t :=
  ⟨(st [99]).halt, _, rfl, (reachesIn_succ (step_ended (by decide))).2 (reachesIn_zero.2 rfl)⟩

theorem witness_HaltedRunsAreSafe : EndsHalted (st [99]) :=
  ⟨1, (st [99]).halt, (reachesIn_succ (step_decoded (i := .hlt) rfl (by rfl))).2 (reachesIn_zero.2 rfl), rfl⟩

/-- The source's loop finds the Halt word, and run() returns M[0]; and a fault ends a run (for
RunReturnsResultOrFault too). -/
theorem witness_RunAgreesWithTheSourceLoop :
    (st [1101, 1, 1, 0, 99]).status = .running ∧ (sourceLoop 2 (st [1101, 1, 1, 0, 99])).isSome ∧
      (runFor 2 (st [1101, 1, 1, 0, 99])).1 = .result 2 ∧
      (runFor 1 (st [0])).1 = .fault ⟨0, some 0, .unknownOpcode 0⟩ := by decide

end Sys2Proof.Tests
end

section
/-! The bounds of a word as numerals, and the words of an encoded instruction (R9, R70, R76, R77). -/

namespace Sys2Proof

/-! ## The bounds as numerals -/

theorem inRange_iff {z : Int} :
    InRange z ↔ -9223372036854775808 ≤ z ∧ z ≤ 9223372036854775807 := Iff.rfl

theorem Config.maxMemLen_eq : Config.maxMemLen = 2 ^ 63 - 4 := rfl

/-! ## The words of an instruction -/

theorem Instr.operands_length (i : Instr) : i.operands.length = i.opcode.nparams := by
  cases i <;> rfl

theorem Instr.operands_length_le (i : Instr) : i.operands.length ≤ 3 :=
  i.operands_length ▸ i.opcode.nparams_le

theorem encode_length (i : Instr) : (encode i).length = 1 + i.opcode.nparams := by
  simp [encode, i.operands_length, Nat.add_comm]

theorem Opcode.code_le (op : Opcode) : op.code ≤ 99 := by cases op <;> decide

/-- Mode digits are at most 1, so they add up to at most `weight · 11…1`. -/
theorem nine_mul_modesValue_le (os : List Operand) (weight : Nat) :
    9 * modesValue weight os + weight ≤ weight * 10 ^ os.length := by
  induction os generalizing weight with
  | nil => simp [modesValue]
  | cons o os ih =>
    have digit_part : o.mode.digit * weight ≤ 1 * weight :=
      Nat.mul_le_mul_right weight o.mode.digit_le_one
    have rest : 9 * modesValue (weight * 10) os + weight * 10 ≤ weight * 10 ^ (o :: os).length := by
      calc 9 * modesValue (weight * 10) os + weight * 10
          ≤ weight * 10 * 10 ^ os.length := ih (weight * 10)
        _ = weight * 10 ^ (o :: os).length := by rw [List.length_cons, pow_succ', mul_assoc]
    simp only [modesValue]
    omega

/-- No canonical instruction word is above 11199: two opcode digits and three mode digits (R70). -/
theorem Instr.headWord_bounds (i : Instr) : 0 ≤ i.headWord ∧ i.headWord ≤ 11199 := by
  have code := i.opcode.code_le
  have modes := nine_mul_modesValue_le i.operands 100
  have pow : 10 ^ i.operands.length ≤ 10 ^ 3 := Nat.pow_le_pow_right (by decide) i.operands_length_le
  simp only [Instr.headWord]
  omega

theorem Instr.headWord_inRange (i : Instr) : InRange i.headWord := by
  have bounds := i.headWord_bounds
  rw [inRange_iff]
  omega

theorem encode_inRange {i : Instr} (hi : i.WellFormed) {w : Int} (hw : w ∈ encode i) : InRange w := by
  rcases List.mem_cons.1 hw with rfl | hw
  · exact i.headWord_inRange
  · obtain ⟨o, ho, rfl⟩ := List.mem_map.1 hw
    exact hi o ho

/-- Settles O7: the instruction word is at most 11199, and the parameter words are i64 by assumption. -/
theorem encodedWordsAreWords : Obligations.EncodedWordsAreWords :=
  fun i hi => ⟨fun _ hw => encode_inRange hi hw, encode_length i⟩

end Sys2Proof
end

section
/-! The data invariant: which updates of the state keep it, and that a step is made of these (R9, R13,
R22). -/

namespace Sys2Proof.Machine

/-! ## Words of memory -/

/-- A word read is a listed word or 0. -/
theorem Memory.read_inRange {m : Memory} (hm : m.wordsInRange) {a v : Int}
    (h : m.read a = some v) : InRange v := by
  obtain ⟨-, rfl⟩ := Memory.read_eq_some.1 h
  rcases lookup_mem m.cells a.toNat with h0 | ⟨c, hc, hv⟩
  · rw [h0]; decide
  · exact hv ▸ hm c hc

theorem Memory.write_wordsInRange {m m' : Memory} (hm : m.wordsInRange) {a v : Int} (hv : InRange v)
    (h : m.write a v = some m') : m'.wordsInRange := by
  intro c hc
  rcases Memory.mem_write h hc with hold | hnew
  · exact hm c hold
  · exact hnew ▸ hv

theorem Memory.inb_write {m m' : Memory} {a b v : Int} (h : m.write a v = some m') :
    m'.inb b ↔ m.inb b := by
  simp only [Memory.inb, Memory.write_len h]

/-! ## Updates of the state -/

section
variable {s : State} (inv : s.DataInv)
include inv

theorem State.DataInv.setPc {a : Int} (ha : InRange a) : (s.setPc a).DataInv :=
  { inv with pcRange := ha }

/-- pc + 4 cannot leave the i64 range from an instruction that memory holds whole (R10, R109). -/
theorem State.DataInv.advance {op : Opcode} (h : s.mem.inb (s.pc + op.nparams)) :
    (s.advance op).DataInv := by
  have len := inv.memLen
  have pc := inRange_iff.1 inv.pcRange
  rw [Config.maxMemLen_eq] at len
  refine inv.setPc (inRange_iff.2 ?_)
  simp only [Opcode.length]
  omega

theorem State.DataInv.setMem {m : Memory} {a v : Int} (hv : InRange v)
    (hm : s.mem.write a v = some m) : (s.setMem m).DataInv :=
  { inv with
    memWf := Memory.write_wf inv.memWf hm
    memLen := (Memory.write_len hm).trans_le inv.memLen
    memRange := Memory.write_wordsInRange inv.memRange hv hm }

theorem State.DataInv.raise (f : FaultInfo) : (s.raise f).DataInv :=
  { inv with waitRange := by simp }

theorem State.DataInv.halt : s.halt.DataInv := { inv with }

theorem State.DataInv.read_inRange {a v : Int} (h : s.mem.read a = some v) : InRange v :=
  Memory.read_inRange inv.memRange h

/-- A value the source answers is an i64 (R140). -/
theorem State.DataInv.pull_value {v : Int} (h : s.input.pull.1 = .value v) : InRange v := by
  have reply := (InputSource.pull_inRange inv.inputRange).1
  rw [h] at reply
  exact of_decide_eq_true reply

theorem State.DataInv.pull_source : s.input.pull.2.InRange :=
  (InputSource.pull_inRange inv.inputRange).2

theorem State.DataInv.trace_append {e : PortEvent} (he : e.InRange) :
    ∀ e' ∈ s.trace ++ [e], e'.InRange := by
  intro e' h
  rcases List.mem_append.1 h with hold | hnew
  · exact inv.traceRange e' hold
  · exact List.mem_singleton.1 hnew ▸ he

theorem State.DataInv.consumeInput {v : Int} (hv : InRange v) : (s.consumeInput v).DataInv :=
  { inv with
    waitRange := by simp
    inputRange := inv.pull_source
    traceRange := inv.trace_append (e := .inEvent v) hv }

theorem State.DataInv.acceptOutput {v : Int} (hv : InRange v) : (s.acceptOutput v).DataInv :=
  { inv with
    waitRange := by simp
    traceRange := inv.trace_append (e := .outEvent v) hv }

theorem State.DataInv.suspendInput : s.suspendInput.DataInv :=
  { inv with waitRange := by simp, inputRange := inv.pull_source }

theorem State.DataInv.suspendOutput {v : Int} (hv : InRange v) : (s.suspendOutput v).DataInv :=
  { inv with waitRange := by simpa using hv }

/-! ## Instructions and steps -/

/-- Whatever an instruction leaves satisfies the data invariant. -/
theorem State.DataInv.of_effect {i : Instr} {t : State} (he : Effect s i t) : t.DataInv := by
  cases he with
  | fault f => exact inv.raise f
  | data hn _ hp hr hm =>
    refine (inv.setMem hr hm).advance ?_
    simpa [hn, Memory.inb_write hm] using hp
  | jump _ _ hd => exact inv.setPc (inv.read_inRange hd)
  | noJump hn hp => exact inv.advance (by simpa [hn] using hp)
  | input hv hp hm =>
    have value := inv.pull_value hv
    refine ((inv.setMem value hm).consumeInput value).advance ?_
    simpa [Opcode.nparams, Memory.inb_write hm] using hp
  | waitIn => exact inv.suspendInput
  | output _ hp hv =>
    exact (inv.acceptOutput (inv.read_inRange hv)).advance (by simpa [Opcode.nparams] using hp)
  | waitOut _ _ hv => exact inv.suspendOutput (inv.read_inRange hv)
  | halt => exact inv.halt

theorem State.DataInv.of_step {t : State} (h : step s = .next t) : t.DataInv := by
  rcases step_cases h with ⟨-, rfl⟩ | ⟨-, f, -, rfl⟩ | ⟨-, i, -, hx⟩
  · exact inv
  · exact inv.raise f
  · exact inv.of_effect (exec_effect hx)

end

/-- Settles O49, by cases on what a step can do. -/
theorem stepKeepsDataInvariant : Obligations.StepKeepsDataInvariant :=
  fun _ _ inv h => inv.of_step h

end Sys2Proof.Machine
end

section
/-! The control invariant of a step (R27, R32, R187): an instruction that completes or waits starts from
no fault record and, unless it is the port instruction waited at, from no wait condition. -/

namespace Sys2Proof.Machine

/-! ## A suspended step fetches again what it fetched before (R23, R32) -/

@[simp] theorem fetchDecode_suspendInput (s : State) :
    fetchDecode s.suspendInput = fetchDecode s := fetchDecode_congr rfl rfl rfl

@[simp] theorem fetchDecode_suspendOutput (s : State) (v : Int) :
    fetchDecode (s.suspendOutput v) = fetchDecode s := fetchDecode_congr rfl rfl rfl

/-! ## States that satisfy the invariant -/

/-- A Running state without a fault record in which no step waits. -/
theorem controlInv_of_running {s : State} (hs : s.status = .running) (hf : s.fault = none)
    (hw : s.wait = .none) : s.ControlInv where
  faultIff := by simp [hs, hf]
  faultAt := by simp [hf]
  waitRunning := by simp [hw]
  waitInAt := by simp [hw]
  waitOutAt := by simp [hw]

/-- Taking a fault establishes the invariant from any state. -/
theorem raise_controlInv (s : State) (f : FaultInfo) : (s.raise f).ControlInv where
  faultIff := by simp
  faultAt := by simp [State.faultRecord]
  waitRunning := by simp
  waitInAt := by simp
  waitOutAt := by simp

theorem halt_controlInv {s : State} (hf : s.fault = none) (hw : s.wait = .none) :
    s.halt.ControlInv where
  faultIff := by simp [hf]
  faultAt := by simp [hf]
  waitRunning := by simp [hw]
  waitInAt := by simp [hw]
  waitOutAt := by simp [hw]

theorem suspendInput_controlInv {s : State} {o : Operand} (hs : s.status = .running)
    (hf : s.fault = none) (hi : fetchDecode s = .ok (.inp o)) : s.suspendInput.ControlInv where
  faultIff := by simp [hs, hf]
  faultAt := by simp [hf]
  waitRunning := by simp [hs]
  waitInAt := fun _ => ⟨o, (fetchDecode_suspendInput s).trans hi⟩
  waitOutAt := by simp

theorem suspendOutput_controlInv {s : State} {o : Operand} {v : Int} (hs : s.status = .running)
    (hf : s.fault = none) (hi : fetchDecode s = .ok (.out o))
    (hv : s.mem.read (s.addrOf 1 o) = some v) : (s.suspendOutput v).ControlInv where
  faultIff := by simp [hs, hf]
  faultAt := by simp [hf]
  waitRunning := by simp [hs]
  waitInAt := by simp
  waitOutAt := by
    intro w hw
    obtain rfl : v = w := by simpa using hw
    exact ⟨o, (fetchDecode_suspendOutput s v).trans hi, hv⟩

section
variable {s : State} (inv : s.ControlInv)
include inv

/-! ## Instructions and steps -/

theorem State.ControlInv.fault_eq_none (hs : s.status = .running) : s.fault = none := by
  have faultIff := inv.faultIff
  simpa [hs] using faultIff

/-- A wait stands at a port instruction only, and each of these has one parameter. -/
theorem State.ControlInv.wait_eq_none {i : Instr} (hi : fetchDecode s = .ok i)
    (hn : i.opcode.nparams ≠ 1) : s.wait = .none := by
  cases hw : s.wait with
  | none => rfl
  | waitIn =>
    obtain ⟨o, ho⟩ := inv.waitInAt hw
    obtain rfl : i = .inp o := by simpa [hi] using ho
    exact absurd rfl hn
  | waitOut v =>
    obtain ⟨o, ho, -⟩ := inv.waitOutAt v hw
    obtain rfl : i = .out o := by simpa [hi] using ho
    exact absurd rfl hn

/-- Whatever the instruction at pc leaves satisfies the control invariant. -/
theorem State.ControlInv.of_effect {i : Instr} {t : State} (hs : s.status = .running)
    (hi : fetchDecode s = .ok i) (he : Effect s i t) : t.ControlInv := by
  have hf := inv.fault_eq_none hs
  cases he with
  | fault f => exact raise_controlInv s f
  | data hn => exact controlInv_of_running hs hf (inv.wait_eq_none hi (by omega))
  | jump hn => exact controlInv_of_running hs hf (inv.wait_eq_none hi (by omega))
  | noJump hn => exact controlInv_of_running hs hf (inv.wait_eq_none hi (by omega))
  | input => exact controlInv_of_running hs hf rfl
  | waitIn => exact suspendInput_controlInv hs hf hi
  | output => exact controlInv_of_running hs hf rfl
  | waitOut _ _ hv => exact suspendOutput_controlInv hs hf hi hv
  | halt => exact halt_controlInv hf (inv.wait_eq_none hi (by decide))

theorem State.ControlInv.of_step {t : State} (h : step s = .next t) : t.ControlInv := by
  rcases step_cases h with ⟨-, rfl⟩ | ⟨-, f, -, rfl⟩ | ⟨hs, i, hi, hx⟩
  · exact inv
  · exact raise_controlInv s f
  · exact inv.of_effect hs hi (exec_effect hx)

end

end Sys2Proof.Machine
end

section
/-! Construction (R220) and the invariant of every state of a run. -/

namespace Sys2Proof.Machine

variable {image : List Int} {source : InputSource} {sink : OutputSink} {strict : Bool}

/-- What `construct` accepts, and the state it makes (R220). -/
theorem construct_eq_some {s : State} :
    construct image source sink strict = some s ↔
      (image.length ≤ Config.maxMemLen ∧ (∀ w ∈ image, InRange w) ∧ source.InRange) ∧
        s = { mem := Memory.ofImage image, pc := 0, status := .running, fault := none,
              wait := .none, input := source, output := sink, trace := [], strict := strict } := by
  rw [construct, Option.ite_none_right_eq_some, Option.some_inj, eq_comm (a := s)]

theorem construct_eq_none :
    construct image source sink strict = none ↔
      ¬ (image.length ≤ Config.maxMemLen ∧ (∀ w ∈ image, InRange w) ∧ source.InRange) := by
  simp only [construct, ite_eq_right_iff, reduceCtorEq, imp_false]

theorem construct_dataInv {s : State} (h : construct image source sink strict = some s) :
    s.DataInv := by
  obtain ⟨⟨hlen, hwords, hsource⟩, rfl⟩ := construct_eq_some.1 h
  exact {
    memWf := Memory.ofImage_wf image
    memLen := hlen
    memRange := fun c hc => hwords c.2 (mem_imageCells hc)
    pcRange := show InRange 0 by decide
    waitRange := by simp
    inputRange := hsource
    traceRange := by simp }

theorem construct_controlInv {s : State} (h : construct image source sink strict = some s) :
    s.ControlInv := by
  obtain ⟨-, rfl⟩ := construct_eq_some.1 h
  exact controlInv_of_running rfl rfl rfl

theorem construct_inv {s : State} (h : construct image source sink strict = some s) : s.Inv :=
  ⟨construct_dataInv h, construct_controlInv h⟩

theorem State.Inv.of_step {s t : State} (inv : s.Inv) (h : step s = .next t) : t.Inv :=
  ⟨inv.data.of_step h, inv.control.of_step h⟩

theorem State.Inv.of_reachesIn {s t : State} {n : Nat} (inv : s.Inv) (h : ReachesIn n s t) : t.Inv :=
  reachesIn_induct (fun _ _ => State.Inv.of_step) inv h

/-- Settles O51: construction establishes the invariant, and every step keeps it. -/
theorem everyReachedStateSatisfiesInvariant : Obligations.EveryReachedStateSatisfiesInvariant :=
  fun _ _ _ _ _ _ _ hc h => (construct_inv hc).of_reachesIn h

/-- Settles O3: each alternative contradicts one of the conditions `construct` checks. -/
theorem constructRefusesOutOfRangeArguments : Obligations.ConstructRefusesOutOfRangeArguments := by
  intro image source sink strict h
  rw [construct_eq_none]
  rintro ⟨hlen, -, hsource⟩
  rcases h with hlong | hbad
  · exact absurd hlen (Nat.not_le.2 hlong)
  · exact hbad hsource

end Sys2Proof.Machine
end

section
/-! What the port instructions do, one equation for each reply of the port, and that it makes no
difference to them which wait condition stands already (R32, R142, R143). -/

namespace Sys2Proof.Machine

variable {s : State} {o : Operand}

/-! ## Encoding, resolution and storing -/

/-- The words of a one-parameter instruction (R70, R76). -/
theorem encode_of_operands_singleton {i : Instr} (h : i.operands = [o]) :
    encode i = [((i.opcode.code + 100 * o.mode.digit : Nat) : Int), o.word] := by
  simp [encode, Instr.headWord, h, modesValue, Nat.mul_comm]

theorem resolve_of_resolves {k : Nat} (h : Resolves s k o) : resolve s k o = .ok (s.addrOf k o) :=
  resolve_of_inb h.1 h.2

theorem resolve_of_not_resolves {k : Nat} (h : ¬ Resolves s k o) :
    ∃ site a, resolve s k o = .error (.outOfBounds site a) := by
  cases hr : resolve s k o with
  | ok a =>
    obtain ⟨cell, addr, -⟩ := resolve_ok.1 hr
    exact absurd ⟨cell, addr⟩ h
  | error f =>
    rcases resolve_error.1 hr with ⟨-, rfl⟩ | ⟨-, -, rfl⟩ <;> exact ⟨_, _, rfl⟩

theorem storedAt_of_write {a v : Int} {m : Memory} (hw : s.mem.wf) (hm : s.mem.write a v = some m) :
    StoredAt s a v m := by
  refine ⟨Memory.write_wf hw hm, Memory.write_len hm, fun b => ?_⟩
  split
  · next hb => rw [hb, Memory.read_write_self hw hm]
  · next hb => exact Memory.read_write_ne hm hb

/-! ## Input -/

theorem exec_inp_unresolved {f : FaultInfo} (hr : resolve s 1 o = .error f) :
    exec (.inp o) s = .next (s.raise f) := by
  simp [exec, execInp, hr, bind, Except.bind]

section
variable (h : Resolves s 1 o)
include h

theorem exec_inp_value {v : Int} {m : Memory} (hv : s.input.pull.1 = .value v)
    (hm : s.mem.write (s.addrOf 1 o) v = some m) :
    exec (.inp o) s = .next (((s.setMem m).consumeInput v).advance .inp) := by
  simp [exec, execInp, resolve_of_resolves h, hv, memWrite_of_write hm, bind, Except.bind,
    pure, Except.pure]

theorem exec_inp_exhausted (hv : s.input.pull.1 = .exhausted) :
    exec (.inp o) s = .next (s.raise .inputUnavailable) := by
  simp [exec, execInp, resolve_of_resolves h, hv, bind, Except.bind]

theorem exec_inp_malformed (hv : s.input.pull.1 = .malformed) :
    exec (.inp o) s = .next (s.raise .parseError) := by
  simp [exec, execInp, resolve_of_resolves h, hv, bind, Except.bind]

theorem exec_inp_notYet (hv : s.input.pull.1 = .notYet) :
    exec (.inp o) s = .next s.suspendInput := by
  simp [exec, execInp, resolve_of_resolves h, hv, bind, Except.bind, pure, Except.pure]

/-- Every outcome of Input sets the wait condition, so the one before does not matter. -/
theorem exec_inp_of_wait (w : WaitCond) : exec (.inp o) { s with wait := w } = exec (.inp o) s := by
  have h' : Resolves { s with wait := w } 1 o := h
  cases hv : s.input.pull.1 with
  | value v =>
    obtain ⟨m, hm, -⟩ := Memory.write_spec v h.2
    rw [exec_inp_value h hv hm, exec_inp_value h' hv hm]; rfl
  | exhausted => rw [exec_inp_exhausted h hv, exec_inp_exhausted h' hv]; rfl
  | malformed => rw [exec_inp_malformed h hv, exec_inp_malformed h' hv]; rfl
  | notYet => rw [exec_inp_notYet h hv, exec_inp_notYet h' hv]; rfl

end

/-- Settles O29, by cases on whether the target resolves and on the port's reply. -/
theorem inputFollowsItsPort : Obligations.InputFollowsItsPort := by
  refine ⟨fun _ => encode_of_operands_singleton rfl, fun s o hw h => ⟨?_, ?_, ?_, ?_⟩,
    fun s o h => ?_⟩
  · intro v hv
    obtain ⟨m, hm, -⟩ := Memory.write_spec v h.2
    exact ⟨m, storedAt_of_write hw hm, exec_inp_value h hv hm⟩
  · exact exec_inp_exhausted h
  · exact exec_inp_malformed h
  · exact exec_inp_notYet h
  · obtain ⟨site, a, hr⟩ := resolve_of_not_resolves h
    exact ⟨site, a, exec_inp_unresolved hr⟩

/-! ## Output -/

theorem exec_out_unresolved {f : FaultInfo} (hr : resolve s 1 o = .error f) :
    exec (.out o) s = .next (s.raise f) := by
  simp [exec, execOut, hr, bind, Except.bind]

section
variable {v : Int} (h : Resolves s 1 o) (hv : s.mem.read (s.addrOf 1 o) = some v)
include h hv

theorem exec_out_accept (ha : s.output.offer.1 = .accept) :
    exec (.out o) s = .next ((s.acceptOutput v).advance .out) := by
  simp [exec, execOut, resolve_of_resolves h, memRead_of_read hv, ha, bind, Except.bind,
    pure, Except.pure]

theorem exec_out_notYet (ha : s.output.offer.1 = .notYet) :
    exec (.out o) s = .next (s.suspendOutput v) := by
  simp [exec, execOut, resolve_of_resolves h, memRead_of_read hv, ha, bind, Except.bind,
    pure, Except.pure]

/-- Every outcome of Output sets the wait condition, so the one before does not matter. -/
theorem exec_out_of_wait (w : WaitCond) : exec (.out o) { s with wait := w } = exec (.out o) s := by
  have h' : Resolves { s with wait := w } 1 o := h
  cases ha : s.output.offer.1 with
  | accept => rw [exec_out_accept h hv ha, exec_out_accept h' hv ha]; rfl
  | notYet => rw [exec_out_notYet h hv ha, exec_out_notYet h' hv ha]; rfl

end

/-- Settles O30, by cases on whether the parameter resolves and on the sink's reply. -/
theorem outputOffersItsOperand : Obligations.OutputOffersItsOperand := by
  refine ⟨fun _ => encode_of_operands_singleton rfl,
    fun s o v h hv => ⟨exec_out_accept h hv, exec_out_notYet h hv⟩, fun s o h => ?_⟩
  obtain ⟨site, a, hr⟩ := resolve_of_not_resolves h
  exact ⟨site, a, exec_out_unresolved hr⟩

end Sys2Proof.Machine
end

section
/-! Waiting (R32, R145), what every step keeps (R22, R27), and the absorbing run states (R26,
R101). -/

namespace Sys2Proof.Machine

variable {s t : State} {o : Operand}

/-! ## Waiting at a port -/

/-- A step is the same from any wait condition if its instruction does the same. -/
theorem step_of_wait {i : Instr} {w : WaitCond} (hs : s.status = .running)
    (hi : fetchDecode s = .ok i) (hx : exec i { s with wait := w } = exec i s) :
    step { s with wait := w } = step s := by
  have again : fetchDecode { s with wait := w } = .ok i :=
    (fetchDecode_congr (s := s) (t := { s with wait := w }) rfl rfl rfl).trans hi
  rw [step_decoded hs hi, ← hx]
  exact step_decoded hs again

section
variable (hs : s.status = .running) (h : Resolves s 1 o)
include hs h

theorem step_eq_suspendInput (hi : fetchDecode s = .ok (.inp o)) (hv : s.input.pull.1 = .notYet) :
    step s = .next s.suspendInput :=
  (step_decoded hs hi).trans (exec_inp_notYet h hv)

theorem step_eq_suspendOutput {v : Int} (hi : fetchDecode s = .ok (.out o))
    (hv : s.mem.read (s.addrOf 1 o) = some v) (ha : s.output.offer.1 = .notYet) :
    step s = .next (s.suspendOutput v) :=
  (step_decoded hs hi).trans (exec_out_notYet h hv ha)

theorem step_inp_of_wait (hi : fetchDecode s = .ok (.inp o)) (w : WaitCond) :
    step { s with wait := w } = step s :=
  step_of_wait hs hi (exec_inp_of_wait h w)

theorem step_out_of_wait {v : Int} (hi : fetchDecode s = .ok (.out o))
    (hv : s.mem.read (s.addrOf 1 o) = some v) (w : WaitCond) : step { s with wait := w } = step s :=
  step_of_wait hs hi (exec_out_of_wait h hv w)

/-- The suspended Input is fetched and executed again, at the source's next moment. -/
theorem step_suspendInput (hi : fetchDecode s = .ok (.inp o)) :
    step s.suspendInput = step { s with input := s.input.pull.2 } := by
  have again : fetchDecode { s with input := s.input.pull.2 } = .ok (.inp o) :=
    (fetchDecode_congr (s := s) (t := { s with input := s.input.pull.2 }) rfl rfl rfl).trans hi
  exact step_inp_of_wait (s := { s with input := s.input.pull.2 }) hs h again .waitIn

/-- The suspended Output is fetched and executed again, at the sink's next moment. -/
theorem step_suspendOutput {v : Int} (hi : fetchDecode s = .ok (.out o))
    (hv : s.mem.read (s.addrOf 1 o) = some v) :
    step (s.suspendOutput v) = step { s with output := s.output.offer.2 } := by
  have again : fetchDecode { s with output := s.output.offer.2 } = .ok (.out o) :=
    (fetchDecode_congr (s := s) (t := { s with output := s.output.offer.2 }) rfl rfl rfl).trans hi
  exact step_out_of_wait (s := { s with output := s.output.offer.2 }) hs h again hv (.waitOut v)

end

/-- Settles O47: the step suspends, and resuming ignores the wait condition it finds. -/
theorem delayDoesNotChangeTheOutcome : Obligations.DelayDoesNotChangeTheOutcome := by
  refine ⟨fun s o hs hi h hp => ?_, fun s o hs hi h ha => ?_⟩
  · exact ⟨_, step_eq_suspendInput hs h hi hp, rfl, step_suspendInput hs h hi⟩
  · obtain ⟨v, hv⟩ := Memory.read_of_inb h.2
    exact ⟨_, v, step_eq_suspendOutput hs h hi hv ha, rfl, step_suspendOutput hs h hi hv⟩

/-- The wait at the input port: each step is one more moment of the source. -/
theorem reachesIn_waitIn (hs : s.status = .running) (h : Resolves s 1 o)
    (hi : fetchDecode s = .ok (.inp o)) (never : ∀ n, (s.input.atMoment n).pull.1 = .notYet)
    (n : Nat) :
    ReachesIn (n + 1) s { s with wait := .waitIn, input := s.input.atMoment (n + 1) } := by
  induction n generalizing s with
  | zero => exact (reachesIn_succ (step_eq_suspendInput hs h hi (never 0))).2 (reachesIn_zero.2 rfl)
  | succ n ih =>
    have again : fetchDecode s.suspendInput = .ok (.inp o) := (fetchDecode_suspendInput s).trans hi
    exact (reachesIn_succ (step_eq_suspendInput hs h hi (never 0))).2
      (ih (s := s.suspendInput) hs h again fun n => never (n + 1))

/-- The wait at the output port: each step is one more moment of the sink. -/
theorem reachesIn_waitOut {v : Int} (hs : s.status = .running) (h : Resolves s 1 o)
    (hi : fetchDecode s = .ok (.out o)) (hv : s.mem.read (s.addrOf 1 o) = some v)
    (never : ∀ n, (s.output.atMoment n).offer.1 = .notYet) (n : Nat) :
    ReachesIn (n + 1) s { s with wait := .waitOut v, output := s.output.atMoment (n + 1) } := by
  induction n generalizing s with
  | zero =>
    exact (reachesIn_succ (step_eq_suspendOutput hs h hi hv (never 0))).2 (reachesIn_zero.2 rfl)
  | succ n ih =>
    have again : fetchDecode (s.suspendOutput v) = .ok (.out o) :=
      (fetchDecode_suspendOutput s v).trans hi
    exact (reachesIn_succ (step_eq_suspendOutput hs h hi hv (never 0))).2
      (ih (s := s.suspendOutput v) hs h again hv fun n => never (n + 1))

/-- A run that from its first step on is in a waiting state at every moment is stuck. -/
theorem endsStuck_of_waiting {u : Nat → State} (reach : ∀ n, 1 ≤ n → ReachesIn n s (u n))
    (running : ∀ n, (u n).status = .running) (waiting : ∀ n, (u n).wait ≠ .none) : EndsStuck s :=
  ⟨1, fun n hn => ⟨u n, reach n hn, running n, waiting n⟩⟩

/-- Settles O48, by induction on the number of steps. -/
theorem unansweredPortIsStuck : Obligations.UnansweredPortIsStuck := by
  refine ⟨fun s o hs hi h never => ?_, fun s o v hs hi h hv never => ?_⟩
  · have reach : ∀ n, 1 ≤ n →
        ReachesIn n s { s with wait := .waitIn, input := s.input.atMoment n } :=
      fun | n + 1, _ => reachesIn_waitIn hs h hi never n
    exact ⟨endsStuck_of_waiting reach (fun _ => hs) (by simp), reach⟩
  · have reach : ∀ n, 1 ≤ n →
        ReachesIn n s { s with wait := .waitOut v, output := s.output.atMoment n } :=
      fun | n + 1, _ => reachesIn_waitOut hs h hi hv never n
    exact ⟨endsStuck_of_waiting reach (fun _ => hs) (by simp), reach⟩

/-! ## What every step keeps -/

/-- Settles O50, by cases on what a step can do. -/
theorem stepKeepsControlInvariant : Obligations.StepKeepsControlInvariant :=
  fun _ _ inv h => inv.of_step h

/-- No instruction resizes memory: a store keeps the length, and nothing else writes memory. -/
theorem Effect.mem_len {i : Instr} (he : Effect s i t) : t.mem.len = s.mem.len := by
  cases he with
  | data _ _ _ _ hm => exact Memory.write_len hm
  | input _ _ hm => exact Memory.write_len hm
  | _ => rfl

/-- Settles O38, by cases on what a step can do. -/
theorem memoryIsNeverResized : Obligations.MemoryIsNeverResized := by
  intro s t h
  rcases step_cases h with ⟨-, rfl⟩ | ⟨-, f, -, rfl⟩ | ⟨-, i, -, hx⟩
  · rfl
  · rfl
  · exact (exec_effect hx).mem_len

/-! ## Runs -/

theorem exists_reachesIn (n : Nat) (s : State) : ∃ t, ReachesIn n s t := by
  induction n generalizing s with
  | zero => exact ⟨s, reachesIn_zero.2 rfl⟩
  | succ n ih =>
    obtain ⟨u, hu⟩ := step_answers_next s
    obtain ⟨t, ht⟩ := ih u
    exact ⟨t, (reachesIn_succ hu).2 ht⟩

theorem reachesIn_ended {n : Nat} (hs : s.status ≠ .running) (h : ReachesIn n s t) : t = s := by
  have stays : ∀ u v, u = s → step u = .next v → v = s := by
    rintro _ v rfl hv
    rw [step_ended hs] at hv
    injection hv with hv
    exact hv.symm
  exact reachesIn_induct (P := (· = s)) stays rfl h

/-- Settles O52: a step always answers a next state, and outside Running it is the same one. -/
theorem haltedAndFaultedAbsorb : Obligations.HaltedAndFaultedAbsorb :=
  fun s n => ⟨exists_reachesIn n s, fun _ hs h => reachesIn_ended hs h⟩

end Sys2Proof.Machine
end

section
/-! Memory (R51, R52, R58, R67): the canonical list is determined by what it answers, what an
instruction can write, and that the next fetch sees what a storing instruction wrote. -/

namespace Sys2Proof.Machine

/-! ## Canonical memories -/

/-- The first address listed is not below the bound of a canonical list that reads alike: below it that
list answers 0, and no listed word is 0. -/
theorem le_head_of_lookup_eq {lo lo' hi a : Nat} {v : Int} {rest cells : List (Nat × Int)}
    (hc : canonicalFrom lo hi ((a, v) :: rest) = true) (hc' : canonicalFrom lo' hi cells = true)
    (alike : ∀ b < hi, lookup ((a, v) :: rest) b = lookup cells b) : lo' ≤ a := by
  obtain ⟨-, ha, hv, -⟩ := canonicalFrom_cons.1 hc
  by_contra hlt
  have zero : lookup cells a = 0 := lookup_below hc' (Nat.not_le.1 hlt)
  have head : lookup ((a, v) :: rest) a = v := by simp [lookup]
  exact hv (head.symm.trans ((alike a ha).trans zero))

/-- Nothing is listed where a canonical list reads as the empty one. -/
theorem eq_nil_of_lookup_eq {lo hi : Nat} {cells : List (Nat × Int)}
    (hc : canonicalFrom lo hi cells = true) (alike : ∀ b < hi, lookup cells b = lookup [] b) :
    cells = [] := by
  cases cells with
  | nil => rfl
  | cons c rest =>
    obtain ⟨-, ha, -, -⟩ := canonicalFrom_cons.1 hc
    have above : hi ≤ c.1 := le_head_of_lookup_eq hc (lo' := hi) rfl alike
    omega

/-- A canonical list is determined by what it answers below its bound. -/
theorem eq_of_lookup_eq {lo hi : Nat} {cells cells' : List (Nat × Int)}
    (hc : canonicalFrom lo hi cells = true) (hc' : canonicalFrom lo hi cells' = true)
    (alike : ∀ b < hi, lookup cells b = lookup cells' b) : cells = cells' := by
  induction cells generalizing lo cells' with
  | nil => exact (eq_nil_of_lookup_eq hc' fun b hb => (alike b hb).symm).symm
  | cons c rest ih =>
    obtain ⟨a, v⟩ := c
    cases cells' with
    | nil => exact eq_nil_of_lookup_eq hc alike
    | cons c' rest' =>
      obtain ⟨a', v'⟩ := c'
      obtain ⟨-, ha, hv, hrest⟩ := canonicalFrom_cons.1 hc
      obtain ⟨-, ha', hv', hrest'⟩ := canonicalFrom_cons.1 hc'
      obtain rfl : a = a' := Nat.le_antisymm
        (le_head_of_lookup_eq hc' (canonicalFrom_cons.2 ⟨le_rfl, ha, hv, hrest⟩)
          fun b hb => (alike b hb).symm)
        (le_head_of_lookup_eq hc (canonicalFrom_cons.2 ⟨le_rfl, ha', hv', hrest'⟩) alike)
      obtain rfl : v = v' := by simpa [lookup] using alike a ha
      have tails : ∀ b < hi, lookup rest b = lookup rest' b := by
        intro b hb
        by_cases hba : b = a
        · rw [lookup_below hrest (by omega), lookup_below hrest' (by omega)]
        · simpa [lookup, hba] using alike b hb
      rw [ih hrest hrest' tails]

/-- Settles O14, by induction on the list of cells. -/
theorem canonicalMemoriesReadingAlikeAreEqual :
    Obligations.CanonicalMemoriesReadingAlikeAreEqual := by
  rintro ⟨len, cells⟩ ⟨len', cells'⟩ hm hm' hlen alike
  obtain rfl : len = len' := hlen
  have lookups : ∀ b < len, lookup cells b = lookup cells' b := by
    intro b hb
    have inb : (⟨len, cells⟩ : Memory).inb b := ⟨by omega, by exact_mod_cast hb⟩
    have read' := (alike b).symm.trans (Memory.read_eq_some.2 ⟨inb, rfl⟩)
    exact (Memory.read_eq_some.1 read').2.symm
  exact congrArg (Memory.mk len) (eq_of_lookup_eq hm hm' lookups)

/-! ## Bounds -/

theorem Memory.write_eq_none {m : Memory} {a v : Int} (h : ¬ m.inb a) : m.write a v = none :=
  if_neg h

/-- Settles O15, from what reads and writes answer. -/
theorem memoryAccessIsBoundsChecked : Obligations.MemoryAccessIsBoundsChecked := by
  intro s a v hw
  refine ⟨fun h => ⟨Memory.read_of_inb h, ?_⟩,
    fun h => ⟨Memory.read_eq_none.2 h, Memory.write_eq_none h⟩⟩
  obtain ⟨m, hm, -⟩ := Memory.write_spec v h
  exact ⟨m, hm, storedAt_of_write hw hm⟩

/-! ## What an instruction can write -/

variable {s t : State}

/-- A three-parameter instruction writes its third parameter (R76). -/
theorem written_of_nparams_eq_three {i : Instr} {target : Operand} (hn : i.opcode.nparams = 3)
    (ho : i.operands[2]? = some target) : i.written = some (3, target) := by
  cases i with
  | add _ _ _ | mul _ _ _ | lt _ _ _ | eq _ _ _ =>
    obtain rfl : _ = target := Option.some_inj.1 ho
    rfl
  | inp | out | jt | jf | hlt => cases hn

/-- An instruction leaves memory as it was, or with one word stored at its written parameter (R58). -/
theorem Effect.mem_cases {i : Instr} (he : Effect s i t) :
    t.mem = s.mem ∨
      ∃ k o v, i.written = some (k, o) ∧ s.mem.write (s.addrOf k o) v = some t.mem := by
  cases he with
  | data hn ho _ _ hm => exact .inr ⟨3, _, _, written_of_nparams_eq_three hn ho, hm⟩
  | input _ _ hm => exact .inr ⟨1, _, _, rfl, hm⟩
  | _ => exact .inl rfl

/-- Settles O36: what is stored is stored at the written parameter. -/
theorem onlyTheWrittenCellChanges : Obligations.OnlyTheWrittenCellChanges := by
  intro s t i h
  rcases (exec_effect h).mem_cases with same | ⟨k, o, v, hw, hm⟩
  · exact ⟨fun _ b => by rw [same], fun _ _ _ b _ => by rw [same]⟩
  · refine ⟨fun hn => by simp [hw] at hn, fun k' o' hw' b hb => ?_⟩
    obtain ⟨rfl, rfl⟩ : k = k' ∧ o = o' := by simpa [hw] using hw'
    exact Memory.read_write_ne hm hb

/-! ## What a storing instruction writes -/

/-- The exact result of Add and Multiply, where `storedWord` has one. -/
theorem exactOrOverflow_of_stored {op : Opcode} {x y r v : Int}
    (h : (if InRange r then some r else none) = some v) : exactOrOverflow op x y r = .ok v := by
  obtain ⟨hr, hv⟩ := Option.ite_none_right_eq_some.1 h
  exact Option.some_inj.1 hv ▸ if_pos hr

/-- The truth word of Less-than and Equals, as `storedWord` has it. -/
theorem truthWord_of_stored {p : Prop} [Decidable p] {v : Int}
    (h : some (if p then (1 : Int) else 0) = some v) :
    (.ok (truthWord (decide p)) : Except FaultInfo Int) = .ok v := by
  rw [← Option.some_inj.1 h]
  simp [truthWord]

/-- A data instruction whose parameters resolve stores the word `g` has for its operands, where `g` is
what its function answers without a fault. -/
theorem dataOp_stores {op : Opcode} {f : Int → Int → Except FaultInfo Int}
    {g : Int → Int → Option Int} {o1 o2 o3 : Operand} {v : Int}
    (agree : ∀ x y, g x y = some v → f x y = .ok v)
    (hr : ∀ (n : Nat) (o : Operand), [o1, o2, o3][n]? = some o → Resolves s (n + 1) o)
    (hv : ((s.mem.read (s.addrOf 1 o1)).bind fun x =>
      (s.mem.read (s.addrOf 2 o2)).bind fun y => g x y) = some v) :
    ∃ t, dataOp op f o1 o2 o3 s = .next t ∧ s.mem.write (s.addrOf 3 o3) v = some t.mem ∧
      t.pc = s.pc + op.length := by
  obtain ⟨x, hx, hv⟩ := Option.bind_eq_some_iff.1 hv
  obtain ⟨y, hy, hv⟩ := Option.bind_eq_some_iff.1 hv
  obtain ⟨m, hm, hx⟩ := (dataOp_resolved (resolve_of_resolves (hr 0 o1 rfl))
    (resolve_of_resolves (hr 1 o2 rfl)) (resolve_of_resolves (hr 2 o3 rfl)) hx hy).1 v (agree x y hv)
  exact ⟨_, hx, hm, rfl⟩

theorem pull_eq_value_of_storedWord {o : Operand} {v : Int}
    (h : s.storedWord (.inp o) = some v) : s.input.pull.1 = .value v := by
  cases hp : s.input.pull.1 <;> simp_all [State.storedWord]

/-- A storing instruction whose parameters resolve and that has a word to write stores it at its written
parameter and moves on. -/
theorem exec_of_storedWord {i : Instr} {k : Nat} {target : Operand} {v : Int}
    (hw : i.written = some (k, target))
    (hr : ∀ (n : Nat) (o : Operand), i.operands[n]? = some o → Resolves s (n + 1) o)
    (hv : s.storedWord i = some v) :
    ∃ t, exec i s = .next t ∧ s.mem.write (s.addrOf k target) v = some t.mem ∧
      t.pc = s.pc + i.opcode.length := by
  cases i with
  | add => cases hw; exact dataOp_stores (fun _ _ => exactOrOverflow_of_stored) hr hv
  | mul => cases hw; exact dataOp_stores (fun _ _ => exactOrOverflow_of_stored) hr hv
  | lt => cases hw; exact dataOp_stores (fun _ _ => truthWord_of_stored) hr hv
  | eq => cases hw; exact dataOp_stores (fun _ _ => truthWord_of_stored) hr hv
  | inp =>
    cases hw
    have resolves : Resolves s 1 target := hr 0 target rfl
    obtain ⟨m, hm, -⟩ := Memory.write_spec v resolves.2
    exact ⟨_, exec_inp_value resolves (pull_eq_value_of_storedWord hv) hm, hm, rfl⟩
  | out | jt | jf | hlt => cases hw

/-! ## The next fetch -/

/-- A word memory has at or after an address in bounds is among the words fetched there. -/
theorem Memory.wordsFrom_getElem_of_read {m : Memory} {a : Int} {count i : Nat} {v : Int}
    (ha : 0 ≤ a) (hi : i < count) (h : m.read (a + i) = some v) :
    (m.wordsFrom a count)[i]? = some v := by
  induction count generalizing a i with
  | zero => omega
  | succ n ih =>
    obtain ⟨⟨-, below⟩, -⟩ := Memory.read_eq_some.1 h
    obtain ⟨u, hu⟩ := Memory.read_of_inb (m := m) (a := a) ⟨ha, by omega⟩
    simp only [Memory.wordsFrom, hu]
    cases i with
    | zero => simpa [hu] using h
    | succ i =>
      rw [List.getElem?_cons_succ]
      refine ih (by omega) (by omega) ?_
      rwa [show a + 1 + (i : Int) = a + ((i + 1 : Nat) : Int) by push_cast; ring]

/-- An instruction that writes has a first parameter. -/
theorem exists_operand_of_written {i : Instr} {k : Nat} {target : Operand}
    (hw : i.written = some (k, target)) : ∃ o, i.operands[0]? = some o := by
  cases i with
  | hlt => cases hw
  | _ => exact ⟨_, rfl⟩

/-- Settles O37: the word stored is read at the next pc, which is not below 0 because the first
parameter's cell is in bounds. -/
theorem storeIsSeenByTheNextFetch : Obligations.StoreIsSeenByTheNextFetch := by
  intro s i k target v j hwf hs hi hw hr hv hj haddr
  obtain ⟨t, hx, hm, hpc⟩ := exec_of_storedWord hw hr hv
  obtain ⟨o, ho⟩ := exists_operand_of_written hw
  obtain ⟨⟨cell, -⟩, -⟩ := hr 0 o ho
  have stored : t.mem.read (t.pc + j) = some v := by
    rw [hpc, ← haddr]
    exact Memory.read_write_self hwf hm
  refine ⟨t, (step_decoded hs hi).trans hx, hpc, Memory.wordsFrom_getElem_of_read ?_ hj stored⟩
  rw [hpc, Opcode.length]
  omega

/-! ## Waiting -/

/-- The instruction at pc leaves a wait condition only by suspending at a port (R32). -/
theorem Effect.wait_cases {i : Instr} (inv : s.ControlInv) (hi : fetchDecode s = .ok i)
    (he : Effect s i t) (hw : t.wait ≠ .none) : t = s.suspendInput ∨ ∃ v, t = s.suspendOutput v := by
  cases he with
  | waitIn => exact .inl rfl
  | waitOut => exact .inr ⟨_, rfl⟩
  | fault | input | output => exact absurd rfl hw
  | data hn => exact absurd (inv.wait_eq_none hi (by omega)) hw
  | jump hn => exact absurd (inv.wait_eq_none hi (by omega)) hw
  | noJump hn => exact absurd (inv.wait_eq_none hi (by omega)) hw
  | halt => exact absurd (inv.wait_eq_none hi (by decide)) hw

/-- Settles O46: the suspended state differs only in the wait condition and the port's host. -/
theorem waitingPreservesArchitecturalState : Obligations.WaitingPreservesArchitecturalState := by
  intro s t inv hs h hw
  rcases step_cases h with ⟨hn, -⟩ | ⟨-, f, -, rfl⟩ | ⟨-, i, hi, hx⟩
  · exact absurd hs hn
  · exact absurd rfl hw
  · rcases (exec_effect hx).wait_cases inv hi hw with rfl | ⟨v, rfl⟩
    · exact ⟨rfl, rfl, hs, rfl, rfl, fetchDecode_suspendInput s⟩
    · exact ⟨rfl, rfl, hs, rfl, rfl, fetchDecode_suspendOutput s v⟩

end Sys2Proof.Machine
end

section
/-! Instruction words (R71 to R75, R85, R103 to R105): which have an opcode, and what their mode digits,
their own and the others, make of them in the two settings of STRICT_MODE_DIGITS. -/

namespace Sys2Proof

/-! ## The opcode -/

theorem opcodeOf_eq_some {w : Int} {op : Opcode} :
    opcodeOf w = some op ↔ 0 ≤ w ∧ w % 100 = op.code := by
  unfold opcodeOf
  split
  · next neg => exact ⟨nofun, fun h => absurd neg (not_lt.2 h.1)⟩
  · next nonneg => rw [Opcode.ofCode_eq_some]; omega

/-- The opcode numbers are the nine of R85. -/
theorem exists_opcode_code_iff {c : Int} :
    (∃ op : Opcode, c = op.code) ↔
      c = 1 ∨ c = 2 ∨ c = 3 ∨ c = 4 ∨ c = 5 ∨ c = 6 ∨ c = 7 ∨ c = 8 ∨ c = 99 := by
  constructor
  · rintro ⟨op, rfl⟩
    cases op <;> decide
  · rintro (rfl | rfl | rfl | rfl | rfl | rfl | rfl | rfl | rfl)
    exacts [⟨.add, rfl⟩, ⟨.mul, rfl⟩, ⟨.inp, rfl⟩, ⟨.out, rfl⟩, ⟨.jt, rfl⟩, ⟨.jf, rfl⟩, ⟨.lt, rfl⟩,
      ⟨.eq, rfl⟩, ⟨.hlt, rfl⟩]

theorem opcodeOf_eq_none {w : Int} :
    opcodeOf w = none ↔ w < 0 ∨ ¬ ∃ op : Opcode, w % 100 = op.code := by
  simp only [Option.eq_none_iff_forall_ne_some, ne_eq, opcodeOf_eq_some, not_and]
  constructor
  · intro h
    by_cases neg : w < 0
    · exact .inl neg
    · exact .inr fun ⟨op, hop⟩ => h op (by omega) hop
  · rintro (neg | h) op nonneg hop
    · omega
    · exact h ⟨op, hop⟩

/-! ## The strict checks -/

theorem strictCheck_hlt (w : Nat) : strictCheck .hlt w = .ok () := rfl

/-- R74: the lowest bad digit of a parameter the opcode lacks. -/
theorem strictCheck_of_bad_digit {op : Opcode} {w k : Nat} (hop : op ≠ .hlt) (hk : op.nparams < k)
    (hk3 : k ≤ 3) (bad : 2 ≤ digit w (k + 1))
    (below : ∀ j, op.nparams < j → j < k → digit w (j + 1) ≤ 1) :
    strictCheck op w = .error (.invalidMode k (digit w (k + 1))) := by
  have report := modesFrom_error (w := w) (n := 3 - op.nparams) hk (by omega) bad below
  simp [strictCheck, hop, report, bind, Except.bind]

/-- R75: with the digits of the parameters it lacks valid, only the digits above them are left. -/
theorem strictCheck_of_digits {op : Opcode} {w : Nat} (hop : op ≠ .hlt)
    (valid : ∀ k, op.nparams < k → k ≤ 3 → digit w (k + 1) ≤ 1) :
    strictCheck op w =
      if w / 100000 = 0 then .ok () else .error (.invalidMode 4 (w / 100000)) := by
  obtain ⟨ms, hms⟩ := modesFrom_of_le_one (w := w) (k := op.nparams + 1) (n := 3 - op.nparams)
    fun j h1 h2 => valid j h1 (by have := op.nparams_le; omega)
  simp [strictCheck, hop, hms, bind, Except.bind]

theorem strictCheck_ok {op : Opcode} {w : Nat}
    (valid : ∀ k, op.nparams < k → k ≤ 3 → digit w (k + 1) ≤ 1) (high : w / 100000 = 0) :
    strictCheck op w = .ok () := by
  by_cases hop : op = .hlt
  · rw [hop, strictCheck_hlt]
  · rw [strictCheck_of_digits hop valid, if_pos high]

/-! ## No check after the opcode's reports UnknownOpcode -/

theorem modesFrom_error_ne_unknownOpcode {w k n : Nat} {e : DecodeError} (v : Int)
    (h : modesFrom w k n = .error e) : e ≠ .unknownOpcode v := by
  induction n generalizing k with
  | zero => cases h
  | succ n ih =>
    simp only [modesFrom, bind, Except.bind] at h
    by_cases valid : digit w (k + 1) ≤ 1
    · obtain ⟨m, hm⟩ := exists_mode_of_le_one valid
      rw [modeOfDigit_ok.2 hm] at h
      cases hr : modesFrom w (k + 1) n with
      | error e' => exact ih (hr.trans (by simpa [hr] using h))
      | ok ms => simp [hr, pure, Except.pure] at h
    · rw [modeOfDigit_error (by omega)] at h
      cases h
      nofun

theorem strictCheck_error_ne_unknownOpcode {op : Opcode} {w : Nat} {e : DecodeError} (v : Int)
    (h : strictCheck op w = .error e) : e ≠ .unknownOpcode v := by
  by_cases hop : op = .hlt
  · rw [hop, strictCheck_hlt] at h
    cases h
  · simp only [strictCheck, hop, if_false, bind, Except.bind] at h
    cases hr : modesFrom w (op.nparams + 1) (3 - op.nparams) with
    | error e' => exact modesFrom_error_ne_unknownOpcode v (hr.trans (by simpa [hr] using h))
    | ok ms =>
      simp only [hr] at h
      split at h <;> cases h
      nofun

/-! ## Instruction words -/

section
variable {w : Int} {op : Opcode} (ho : opcodeOf w = some op)
include ho

theorem decodeHead_ne_unknownOpcode (strict : Bool) (v : Int) :
    decodeHead strict w ≠ .error (.unknownOpcode v) := by
  rw [decodeHead_of_opcode ho]
  cases hm : modesFrom w.toNat 1 op.nparams with
  | error e => simpa using modesFrom_error_ne_unknownOpcode v hm
  | ok ms =>
    cases strict with
    | false => nofun
    | true =>
      cases hs : strictCheck op w.toNat with
      | error e => simpa using strictCheck_error_ne_unknownOpcode v hs
      | ok _ => nofun

theorem decodeHead_of_modes_error {e : DecodeError} (strict : Bool)
    (hm : modesFrom w.toNat 1 op.nparams = .error e) : decodeHead strict w = .error e := by
  rw [decodeHead_of_opcode ho, hm]

/-- The words without a bad digit the setting looks at. -/
theorem decodeHead_of_modes {strict : Bool} {modes : List Mode}
    (hm : modesFrom w.toNat 1 op.nparams = .ok modes)
    (hs : strict = true → strictCheck op w.toNat = .ok ()) :
    decodeHead strict w = .ok ⟨op, modes⟩ := by
  rw [decodeHead_of_opcode ho, hm]
  cases strict with
  | false => rfl
  | true => simp [hs rfl]

/-- R105: the first bad digit of the opcode's own parameters. -/
theorem decodeHead_of_bad_digit {k : Nat} (strict : Bool) (hk : 1 ≤ k) (hn : k ≤ op.nparams)
    (bad : 2 ≤ digit w.toNat (k + 1))
    (below : ∀ j, 1 ≤ j → j < k → digit w.toNat (j + 1) ≤ 1) :
    decodeHead strict w = .error (.invalidMode k (digit w.toNat (k + 1))) :=
  decodeHead_of_modes_error ho strict (modesFrom_error hk (by omega) bad below)

section
variable (own : ∀ k, 1 ≤ k → k ≤ op.nparams → digit w.toNat (k + 1) ≤ 1)
include own

/-- With its own digits valid, what a strict check reports is reported. -/
theorem decodeHead_of_strictCheck_error {e : DecodeError}
    (hs : strictCheck op w.toNat = .error e) : decodeHead true w = .error e := by
  obtain ⟨modes, hm⟩ := modesFrom_of_le_one (w := w.toNat) (k := 1) (n := op.nparams)
    fun j h1 h2 => own j h1 (by omega)
  simp [decodeHead_of_opcode ho, hm, hs]

/-- R74: the first bad digit of the parameters the opcode lacks. -/
theorem decodeHead_of_lacking_digit {k : Nat} (hop : op ≠ .hlt) (hk : op.nparams < k) (hk3 : k ≤ 3)
    (bad : 2 ≤ digit w.toNat (k + 1))
    (below : ∀ j, op.nparams < j → j < k → digit w.toNat (j + 1) ≤ 1) :
    decodeHead true w = .error (.invalidMode k (digit w.toNat (k + 1))) :=
  decodeHead_of_strictCheck_error ho own (strictCheck_of_bad_digit hop hk hk3 bad below)

/-- R75: the digits above the ten-thousands place. -/
theorem decodeHead_of_high_digits (hop : op ≠ .hlt)
    (lacking : ∀ k, op.nparams < k → k ≤ 3 → digit w.toNat (k + 1) ≤ 1)
    (high : w.toNat / 100000 ≠ 0) :
    decodeHead true w = .error (.invalidMode 4 (w.toNat / 100000)) :=
  decodeHead_of_strictCheck_error ho own
    ((strictCheck_of_digits hop lacking).trans (if_neg high))

end

theorem decodeHead_strict_of_strictCheck (hs : strictCheck op w.toNat = .ok ()) :
    decodeHead true w = decodeHead false w := by
  cases hm : modesFrom w.toNat 1 op.nparams with
  | error e => rw [decodeHead_of_modes_error ho true hm, decodeHead_of_modes_error ho false hm]
  | ok ms =>
    rw [decodeHead_of_modes (strict := true) ho hm fun _ => hs,
      decodeHead_of_modes (strict := false) ho hm nofun]

end

theorem decodeHead_hlt {w : Int} (ho : opcodeOf w = some .hlt) (strict : Bool) :
    decodeHead strict w = .ok ⟨.hlt, []⟩ :=
  decodeHead_of_modes ho rfl fun _ => strictCheck_hlt w.toNat

theorem decodeHead_of_no_opcode {w : Int} (ho : opcodeOf w = none) (strict : Bool) :
    decodeHead strict w = .error (.unknownOpcode w) := by
  simp [decodeHead, ho]

theorem decodeHead_eq_unknownOpcode {strict : Bool} {w : Int} :
    decodeHead strict w = .error (.unknownOpcode w) ↔ opcodeOf w = none := by
  cases ho : opcodeOf w with
  | none => simp [decodeHead_of_no_opcode ho]
  | some op => simp [decodeHead_ne_unknownOpcode ho]

/-- Settles O9: no later check reports UnknownOpcode, and the opcode numbers are the nine of R85. -/
theorem illegalOpcodesAreExactly : Obligations.IllegalOpcodesAreExactly := by
  intro strict w
  rw [decodeHead_eq_unknownOpcode, opcodeOf_eq_none, exists_opcode_code_iff]

/-- Settles O10: a run of mode digits reports its first bad one. -/
theorem lowestBadModeDigitIsReported : Obligations.LowestBadModeDigitIsReported :=
  fun strict _ _ _ ho hk hn bad below => decodeHead_of_bad_digit ho strict hk hn bad below

/-- Settles O11: the two words have one opcode, and the modes are read from equal digits. -/
theorem unusedDigitsAreIgnoredByDefault : Obligations.UnusedDigitsAreIgnoredByDefault := by
  intro w w' op ho nonneg low digits
  have ho' : opcodeOf w' = some op :=
    opcodeOf_eq_some.2 ⟨nonneg, low ▸ (opcodeOf_eq_some.1 ho).2⟩
  have modes : modesFrom w.toNat 1 op.nparams = modesFrom w'.toNat 1 op.nparams :=
    modesFrom_congr fun j h1 h2 => digits j h1 (by omega)
  rw [decodeHead_of_opcode ho, decodeHead_of_opcode ho', modes]
  rfl

/-- Settles O12: the strict checks come after the opcode's own digits, in their order, and pass Halt. -/
theorem strictSettingChecksTheOtherDigits : Obligations.StrictSettingChecksTheOtherDigits := by
  refine ⟨fun w op ho hop own => ⟨?_, ?_⟩, fun strict w ho => decodeHead_hlt ho strict⟩
  · intro k hk hk3 bad below
    exact decodeHead_of_lacking_digit ho own hop hk hk3 bad below
  · intro lacking
    exact ⟨decodeHead_of_high_digits ho own hop lacking,
      fun high => decodeHead_strict_of_strictCheck ho (strictCheck_ok lacking high)⟩

end Sys2Proof
end

section
/-! Decoding what the encoder and the disassembler write (R70 to R77, R87, R88, R90): the digits of a
canonical instruction word are its opcode's two and its modes, and nothing else. -/

namespace Sys2Proof

/-! ## Digits -/

theorem digit_succ (w j : Nat) : digit w (j + 1) = digit (w / 10) j := by
  simp only [digit, pow_succ', Nat.div_div_eq_div_mul]

theorem digit_add_two (w j : Nat) : digit w (j + 2) = digit (w / 100) j := by
  rw [digit_succ, digit_succ, Nat.div_div_eq_div_mul]

theorem modesValue_eq_mul (weight : Nat) (os : List Operand) :
    modesValue weight os = weight * modesValue 1 os := by
  induction os generalizing weight with
  | nil => rfl
  | cons o os ih => simp only [modesValue, one_mul, ih (weight * 10), ih 10]; ring

/-- Written in decimal, the modes' value has the mode digits, lowest first. -/
theorem digit_modesValue (os : List Operand) (j : Nat) :
    digit (modesValue 1 os) j = (os.map fun o => o.mode.digit).getD j 0 := by
  induction os generalizing j with
  | nil => simp [modesValue, digit]
  | cons o os ih =>
    have low := o.mode.digit_le_one
    have value : modesValue 1 (o :: os) = o.mode.digit + 10 * modesValue 1 os := by
      simp only [modesValue, one_mul, mul_one, modesValue_eq_mul 10]
    cases j with
    | zero => simp only [value, digit, List.map_cons, List.getD_cons_zero]; omega
    | succ j =>
      rw [digit_succ, show modesValue 1 (o :: os) / 10 = modesValue 1 os by omega, ih,
        List.map_cons, List.getD_cons_succ]

theorem Instr.headWord_toNat (i : Instr) :
    i.headWord.toNat = i.opcode.code + 100 * modesValue 1 i.operands := by
  rw [Instr.headWord, Int.toNat_natCast, modesValue_eq_mul]

theorem Instr.digit_headWord (i : Instr) (j : Nat) :
    digit i.headWord.toNat (j + 2) = (i.operands.map fun o => o.mode.digit).getD j 0 := by
  have code := i.opcode.code_le
  have value := i.headWord_toNat
  rw [digit_add_two, show i.headWord.toNat / 100 = modesValue 1 i.operands by omega, digit_modesValue]

theorem Instr.digit_headWord_le_one (i : Instr) (j : Nat) :
    digit i.headWord.toNat (j + 2) ≤ 1 := by
  rw [i.digit_headWord, List.getD_eq_getElem?_getD, List.getElem?_map]
  cases i.operands[j]? with
  | none => exact Nat.zero_le 1
  | some o => exact o.mode.digit_le_one

/-! ## The instruction word -/

/-- Digits that are those of modes give these modes. -/
theorem modesFrom_of_digits {w k : Nat} {modes : List Mode}
    (h : ∀ (j : Nat) (m : Mode), modes[j]? = some m → digit w (k + j + 1) = m.digit) :
    modesFrom w k modes.length = .ok modes := by
  induction modes generalizing k with
  | nil => rfl
  | cons m modes ih =>
    refine modesFrom_succ_ok.2 ⟨m, modes, h 0 m rfl, ih fun j m' hj => ?_, rfl⟩
    rw [show k + 1 + j + 1 = k + (j + 1) + 1 by omega]
    exact h (j + 1) m' (by simpa using hj)

theorem opcodeOf_headWord (i : Instr) : opcodeOf i.headWord = some i.opcode := by
  have code := i.opcode.code_le
  have value := i.headWord_toNat
  have nonneg := i.headWord_bounds.1
  exact opcodeOf_eq_some.2 ⟨nonneg, by omega⟩

theorem modesFrom_headWord (i : Instr) :
    modesFrom i.headWord.toNat 1 i.opcode.nparams = .ok (i.operands.map Operand.mode) := by
  rw [← i.operands_length, ← List.length_map Operand.mode]
  refine modesFrom_of_digits fun j m hm => ?_
  obtain ⟨o, ho, rfl⟩ := Option.map_eq_some_iff.1 (List.getElem?_map.symm.trans hm)
  rw [show 1 + j + 1 = j + 2 by omega, i.digit_headWord]
  simp [ho]

/-- A canonical instruction word passes the strict checks too (R74, R75). -/
theorem strictCheck_headWord (i : Instr) : strictCheck i.opcode i.headWord.toNat = .ok () := by
  have bounds := i.headWord_bounds
  refine strictCheck_ok (fun k hk _ => ?_) (by omega)
  obtain ⟨j, rfl⟩ : ∃ j, k = j + 1 := ⟨k - 1, by omega⟩
  exact i.digit_headWord_le_one j

theorem decodeHead_headWord (i : Instr) (strict : Bool) :
    decodeHead strict i.headWord = .ok ⟨i.opcode, i.operands.map Operand.mode⟩ :=
  decodeHead_of_modes (opcodeOf_headWord i) (modesFrom_headWord i) fun _ => strictCheck_headWord i

/-! ## The parameter words -/

theorem Instr.build_operands (i : Instr) : Instr.build i.opcode i.operands = some i := by
  cases i <;> rfl

/-- Modes and words of parameters, put together again. -/
theorem zipWith_mode_word (os : List Operand) (rest : List Int) :
    List.zipWith Operand.mk (os.map Operand.mode) (os.map Operand.word ++ rest) = os := by
  induction os with
  | nil => rfl
  | cons o os ih => simp [ih]

theorem decode_encode (i : Instr) (strict : Bool) (rest : List Int) :
    decode strict (encode i ++ rest) = .ok (i, rest) := by
  have after : (i.operands.map Operand.word ++ rest).drop i.opcode.nparams = rest :=
    List.drop_left' (by rw [List.length_map, i.operands_length])
  simp [decode, encode, decodeHead_headWord, zipWith_mode_word, i.build_operands, after]

/-- Settles O6: the head word decodes to the opcode and the modes, which take the parameter words. -/
theorem decodeOfEncodeIsTheInstruction : Obligations.DecodeOfEncodeIsTheInstruction :=
  fun i strict rest _ => decode_encode i strict rest

/-- Settles O8, word by word. -/
theorem specWordsDecode : Obligations.SpecWordsDecode :=
  ⟨rfl, rfl, rfl, rfl, rfl, rfl, rfl, rfl, rfl⟩

end Sys2Proof

namespace Sys2Proof.Asm

/-! ## Assembly statements -/

theorem disassembleOne_encode (i : Instr) (strict : Bool) (rest : List Int) :
    disassembleOne strict (encode i ++ rest) = some (ofInstr i, rest) := by
  have decoded := decode_encode i strict rest
  simp only [encode, List.cons_append] at decoded ⊢
  simp only [disassembleOne, decoded]

/-- The parameters of a disassembled instruction name no label. -/
theorem operands_ofInstr (table : List (String × Nat)) (os : List Operand) :
    operands table (os.map fun o => ⟨o.mode, .int o.word⟩) = some os := by
  induction os with
  | nil => rfl
  | cons o os ih => simp [operands, Expr.value, ih]

theorem words_ofInstr (i : Instr) (table : List (String × Nat)) :
    (ofInstr i).words table = some (encode i) := by
  simp [ofInstr, Stmt.words, Stmt.expand, operands_ofInstr, i.build_operands]

theorem words_instr_length {op : Opcode} {args : List Arg} {table : List (String × Nat)}
    {ws : List Int} (h : (Stmt.instr op args).words table = some ws) : ws.length = op.length := by
  obtain ⟨os, -, h⟩ := Option.bind_eq_some_iff.1 h
  obtain ⟨i, hi, h⟩ := Option.bind_eq_some_iff.1 h
  obtain rfl : encode i = ws := Option.some_inj.1 h
  rw [encode_length, (Instr.build_eq_some hi).1, Opcode.length]

theorem words_length {st : Stmt} {table : List (String × Nat)} {ws : List Int}
    (h : st.words table = some ws) : ws.length = st.size := by
  cases st with
  | instr op args => exact words_instr_length h
  | jmp dest => exact words_instr_length (op := .jt) (args := [⟨.immediate, .int 1⟩, dest]) h
  | word ws' => exact congrArg List.length (Option.some_inj.1 h).symm

/-- Settles O13, by the round trip of the encoding and the number of words of each statement. -/
theorem disassemblyReassembles : Obligations.DisassemblyReassembles :=
  ⟨fun i strict rest table => ⟨disassembleOne_encode i strict rest, words_ofInstr i table⟩,
    fun _ _ _ h => words_length h⟩

end Sys2Proof.Asm
end

section
/-! Fetch and decode (R70, R78, R79, R82, R102 to R106): what is read at pc, the parameters that are
there, and the instruction or the fault that this makes. -/

namespace Sys2Proof.Machine

variable {s : State} {w : Int}

/-! ## The words at pc -/

theorem fetchDecode_of_decode {i : Instr} {rest : List Int}
    (h : decode s.strict s.fetchWords = .ok (i, rest)) : fetchDecode s = .ok i := by
  simp [fetchDecode, h]

/-- Words that stand at pc cell for cell come first in what is fetched. -/
theorem fetchWords_eq_append {ws : List Int} (hlen : ws.length ≤ 4)
    (h : ∀ j < ws.length, s.mem.read (s.pc + j) = ws[j]?) : ∃ rest, s.fetchWords = ws ++ rest :=
  ⟨_, Memory.wordsFrom_eq_append h hlen⟩

theorem encode_length_le (i : Instr) : (encode i).length ≤ 4 := by
  have count := i.opcode.nparams_le
  rw [encode_length]
  omega

/-- Settles O18: the encoding comes first in what is fetched, and decodes to the instruction. -/
theorem stepRunsInstructionEncodedAtPc : Obligations.StepRunsInstructionEncodedAtPc := by
  intro s i hs _ cells
  obtain ⟨rest, fetched⟩ := fetchWords_eq_append (encode_length_le i) cells
  exact step_decoded hs (fetchDecode_of_decode (fetched ▸ decode_encode i s.strict rest))

/-! ## The load from outside -/

theorem Memory.load_cons {m m' : Memory} {a : Nat} {v : Int} (h : m.write a v = some m')
    (vs : List Int) : m.load a (v :: vs) = m'.load (a + 1) vs := by
  simp [Memory.load, h]

theorem Memory.read_load_below {m : Memory} {a : Nat} {b : Int} (hb : b < a) (ws : List Int) :
    (m.load a ws).read b = m.read b := by
  induction ws generalizing m a with
  | nil => rfl
  | cons v vs ih =>
    cases hw : m.write a v with
    | none => simp [Memory.load, hw]
    | some m' =>
      rw [Memory.load_cons hw, ih (by omega)]
      exact Memory.read_write_ne hw (by omega)

/-- What is loaded below the end of memory is read back. -/
theorem Memory.read_load {m : Memory} (hm : m.wf) {a : Nat} {ws : List Int}
    (hlen : a + ws.length ≤ m.len) {i : Nat} (hi : i < ws.length) :
    (m.load a ws).read ((a : Int) + i) = ws[i]? := by
  induction ws generalizing m a i with
  | nil => cases hi
  | cons v vs ih =>
    rw [List.length_cons] at hlen hi
    have inb : m.inb a := ⟨by omega, by omega⟩
    obtain ⟨m', hw, len, -⟩ := Memory.write_spec v inb
    rw [Memory.load_cons hw]
    cases i with
    | zero =>
      rw [Memory.read_load_below (by omega)]
      simpa using Memory.read_write_self hm hw
    | succ i =>
      have tail := ih (Memory.write_wf hm hw) (a := a + 1) (by omega) (i := i) (by omega)
      rw [List.getElem?_cons_succ, ← tail]
      congr 1
      push_cast
      ring

/-- The words loaded at pc are what the next step fetches there. -/
theorem fetchWords_loadAtPc (hw : s.mem.wf) {ws : List Int} (hlen : ws.length = 4) :
    (s.loadAtPc ws).fetchWords = ws := by
  have loaded : ∀ i < ws.length,
      (s.loadAtPc ws).mem.read ((s.loadAtPc ws).pc + i) = ws[i]? := fun i hi =>
    Memory.read_load (Memory.growTo_wf _ hw) (Nat.le_max_right _ _) hi
  have fetched := Memory.wordsFrom_eq_append loaded hlen.le
  simpa [State.fetchWords, hlen, Memory.wordsFrom] using fetched

theorem decode_of_decodeTableWord {nbits n : Nat} {i : Instr} (h : decodeTableWord nbits n = some i) :
    ∃ rest, decode Config.strictModeDigits (wordsOfBits nbits n) = .ok (i, rest) := by
  unfold decodeTableWord at h
  cases hd : decode Config.strictModeDigits (wordsOfBits nbits n) with
  | error e => simp [hd] at h
  | ok r =>
    obtain rfl : r.1 = i := by simpa [hd] using h
    exact ⟨r.2, rfl⟩

/-- Settles O20: the four words loaded at pc are fetched there, in a Running core of the same setting. -/
theorem withFetchWordRunsTheWord : Obligations.WithFetchWordRunsTheWord := by
  intro s nbits n i hw hstrict h
  obtain ⟨rest, hd⟩ := decode_of_decodeTableWord h
  have fetched : (s.withFetchWord nbits n).fetchWords = wordsOfBits nbits n :=
    fetchWords_loadAtPc hw rfl
  refine step_decoded rfl (fetchDecode_of_decode (rest := rest) ?_)
  rw [fetched]
  exact hstrict ▸ hd

/-! ## The parameters at pc -/

/-- The parameters of an instruction with these modes at pc, as far as memory has their words. -/
def State.paramsAt (s : State) (modes : List Mode) : List Operand :=
  List.zipWith Operand.mk modes (s.mem.wordsFrom (s.pc + 1) 3)

theorem fetchWords_of_read (h : s.mem.read s.pc = some w) :
    s.fetchWords = w :: s.mem.wordsFrom (s.pc + 1) 3 := by
  simp [State.fetchWords, Memory.wordsFrom, h]

theorem paramsAt_getElem {modes : List Mode} {k : Nat} {o : Operand}
    (h : (s.paramsAt modes)[k]? = some o) :
    modes[k]? = some o.mode ∧ s.mem.read (s.pc + ((k + 1 : Nat) : Int)) = some o.word := by
  obtain ⟨mode, word, hm, hv, rfl⟩ := List.getElem?_zipWith_eq_some.1 h
  have cell := Memory.wordsFrom_getElem hv
  rw [show s.pc + 1 + (k : Int) = s.pc + ((k + 1 : Nat) : Int) by push_cast; ring] at cell
  exact ⟨hm, cell⟩

theorem paramsAt_length_le (modes : List Mode) : (s.paramsAt modes).length ≤ modes.length := by
  rw [State.paramsAt, List.length_zipWith]
  exact Nat.min_le_left _ _

/-- A parameter is there exactly if its cell is in bounds. -/
theorem lt_paramsAt_length_iff {modes : List Mode} {k : Nat} (hpc : s.mem.inb s.pc)
    (hk : k < modes.length) (hk3 : k < 3) :
    k < (s.paramsAt modes).length ↔ s.mem.inb (s.pc + ((k + 1 : Nat) : Int)) := by
  constructor
  · intro present
    obtain ⟨-, cell⟩ := paramsAt_getElem (List.getElem?_eq_getElem present)
    exact (Memory.read_eq_some.1 cell).1
  · intro cell
    obtain ⟨v, hv⟩ := Memory.read_of_inb cell
    rw [show s.pc + ((k + 1 : Nat) : Int) = s.pc + 1 + (k : Int) by push_cast; ring] at hv
    have nonneg : 0 ≤ s.pc := hpc.1
    have word := Memory.wordsFrom_getElem_of_read (count := 3) (by omega) hk3 hv
    have present : k < (s.mem.wordsFrom (s.pc + 1) 3).length := (List.getElem?_eq_some_iff.1 word).1
    rw [State.paramsAt, List.length_zipWith]
    omega

theorem le_paramsAt_length {modes : List Mode} {n : Nat} (hpc : s.mem.inb s.pc)
    (hn : n ≤ modes.length) (hn3 : n ≤ 3)
    (cells : ∀ k : Nat, 1 ≤ k → k ≤ n → s.mem.inb (s.pc + k)) : n ≤ (s.paramsAt modes).length := by
  cases n with
  | zero => exact Nat.zero_le _
  | succ n => exact (lt_paramsAt_length_iff hpc hn hn3).2 (cells (n + 1) (by omega) le_rfl)

/-! ## The head decoded at pc -/

section
variable (hw : s.mem.read s.pc = some w)
include hw

theorem fetchDecode_of_head_error {e : DecodeError} (hd : decodeHead s.strict w = .error e) :
    fetchDecode s = .error (decodeFault s e) := by
  simp [fetchDecode, fetchWords_of_read hw, decode, hd]

section
variable {op : Opcode} {modes : List Mode} (hd : decodeHead s.strict w = .ok ⟨op, modes⟩)
include hd

/-- With all parameters there, they make the instruction. -/
theorem fetchDecode_of_head (all : (s.paramsAt modes).length = op.nparams) :
    ∃ i, fetchDecode s = .ok i ∧ i.opcode = op ∧ i.operands = s.paramsAt modes := by
  obtain ⟨i, hi, hop, hos⟩ := Instr.build_of_length all
  refine ⟨i, ?_, hop, hos⟩
  rw [State.paramsAt] at hi
  simp [fetchDecode, fetchWords_of_read hw, decode, hd, hi]

/-- With a parameter missing, the fetch faults. -/
theorem fetchDecode_truncated (missing : (s.paramsAt modes).length ≠ op.nparams) :
    fetchDecode s = .error (truncatedFault s (s.paramsAt modes)) := by
  have unbuilt : Instr.build op (s.paramsAt modes) = none := by
    by_contra built
    obtain ⟨i, hi⟩ := Option.ne_none_iff_exists'.1 built
    obtain ⟨rfl, hos⟩ := Instr.build_eq_some hi
    exact missing (hos ▸ i.operands_length)
  rw [State.paramsAt] at unbuilt ⊢
  simp [fetchDecode, fetchWords_of_read hw, decode, hd, unbuilt, decodeFault]

end
end

/-- The modes of a decoded head, from the digits of its word. -/
theorem digit_of_head {strict : Bool} {op : Opcode} {modes : List Mode}
    (hd : decodeHead strict w = .ok ⟨op, modes⟩) :
    modes.length = op.nparams ∧
      ∀ (k : Nat) (m : Mode), modes[k]? = some m → digit w.toNat (k + 2) = m.digit := by
  obtain ⟨-, -, hm⟩ := decodeHead_ok hd
  obtain ⟨len, digits⟩ := modesFrom_getElem hm
  exact ⟨len, fun k m h => by rw [← digits k m h, show k + 2 = 1 + k + 1 by omega]⟩

/-- The address of a parameter there is that of its mode digit (R78, R79). -/
theorem addrOf_paramsAt {strict : Bool} {op : Opcode} {modes : List Mode}
    (hd : decodeHead strict w = .ok ⟨op, modes⟩) {k : Nat} {o : Operand}
    (h : (s.paramsAt modes)[k]? = some o) : s.addrOf (k + 1) o = s.specAddr w (k + 1) := by
  obtain ⟨hm, cell⟩ := paramsAt_getElem h
  have hdigit := (digit_of_head hd).2 k o.mode hm
  unfold State.addrOf State.specAddr
  rw [hdigit, cell]
  cases o.mode <;> rfl

/-- Settles O19: with the cells in bounds, the parameters there are all of the opcode's. -/
theorem fetchDecodeReadsTheInstructionAtPc : Obligations.FetchDecodeReadsTheInstructionAtPc := by
  intro s w op modes hw hd cells
  have len := (digit_of_head hd).1
  have inb := (Memory.read_eq_some.1 hw).1
  have all : (s.paramsAt modes).length = op.nparams :=
    le_antisymm (len ▸ paramsAt_length_le modes)
      (le_paramsAt_length inb len.ge op.nparams_le cells)
  obtain ⟨i, hi, hop, hos⟩ := fetchDecode_of_head hw hd all
  refine ⟨i, hi, hop, hos ▸ all, fun k o ho => ?_⟩
  rw [hos] at ho
  exact ⟨(paramsAt_getElem ho).2, addrOf_paramsAt hd ho⟩

end Sys2Proof.Machine
end

section
/-! The faults of decoding and of the first parameter that does not resolve (R80, R81, R105, R106,
R189). -/

namespace Sys2Proof.Machine

variable {s : State} {w : Int}

theorem raise_eq_faultedWith {word : Option Int} (h : s.mem.read s.pc = word) (f : FaultInfo) :
    s.raise f = s.faultedWith word f := by
  subst h
  rfl

/-! ## Bad digits -/

theorem step_of_head_error {e : DecodeError} (hs : s.status = .running)
    (hw : s.mem.read s.pc = some w) (hd : decodeHead s.strict w = .error e) :
    step s = .next (s.faultedWith (some w) (decodeFault s e)) := by
  rw [step_undecoded hs (fetchDecode_of_head_error hw hd), raise_eq_faultedWith hw]

/-- Settles O23: the head of the word is an error, whatever the parameters' cells hold. -/
theorem badModeDigitFaultsInvalidMode : Obligations.BadModeDigitFaultsInvalidMode := by
  intro s w op hs hw ho
  refine ⟨fun k hk hn bad below => ?_, fun hstrict hop => ⟨fun k hk hk3 bad below => ?_,
    fun high valid => ?_⟩⟩
  · exact step_of_head_error hs hw (decodeHead_of_bad_digit ho s.strict hk hn bad below)
  · refine step_of_head_error hs hw (e := .invalidMode k (digit w.toNat (k + 1))) ?_
    rw [hstrict]
    exact decodeHead_of_lacking_digit ho (fun j h1 h2 => below j h1 (by omega)) hop hk hk3 bad
      fun j h1 h2 => below j (by omega) h2
  · refine step_of_head_error hs hw (e := .invalidMode 4 (w.toNat / 100000)) ?_
    have count := op.nparams_le
    rw [hstrict]
    exact decodeHead_of_high_digits ho (fun j h1 h2 => valid j h1 (by omega)) hop
      (fun j h1 h2 => valid j (by omega) h2) high

/-! ## The first parameter that does not resolve -/

/-- The parameters from the k-th on fault as the first of them that does not resolve. -/
theorem resolveFrom_error_of_first {os : List Operand} {k j : Nat} {o : Operand} {f : FaultInfo}
    (ho : os[j]? = some o)
    (before : ∀ i p, i < j → os[i]? = some p → Resolves s (k + i) p)
    (hf : resolve s (k + j) o = .error f) : resolveFrom s k os = .error f := by
  induction os generalizing k j with
  | nil => simp at ho
  | cons p os ih =>
    cases j with
    | zero =>
      obtain rfl : p = o := by simpa using ho
      simp [resolveFrom, show resolve s k p = .error f from hf]
    | succ j =>
      have head : resolve s k p = .ok (s.addrOf k p) :=
        resolve_of_resolves (before 0 p (by omega) rfl)
      have rest : resolveFrom s (k + 1) os = .error f := by
        refine ih (j := j) (by simpa using ho) (fun i q hi hq => ?_) ?_
        · rw [show k + 1 + i = k + (i + 1) by omega]
          exact before (i + 1) q (by omega) (by simpa using hq)
        · rwa [show k + 1 + j = k + (j + 1) by omega]
      simp [resolveFrom, head, rest]

theorem resolveFrom_of_resolves {os : List Operand} {k : Nat}
    (all : ∀ i p, os[i]? = some p → Resolves s (k + i) p) : ∃ as, resolveFrom s k os = .ok as := by
  induction os generalizing k with
  | nil => exact ⟨[], rfl⟩
  | cons p os ih =>
    have head : resolve s k p = .ok (s.addrOf k p) := resolve_of_resolves (all 0 p rfl)
    obtain ⟨as, rest⟩ := ih (k := k + 1) fun i q hq => by
      rw [show k + 1 + i = k + (i + 1) by omega]
      exact all (i + 1) q (by simpa using hq)
    exact ⟨s.addrOf k p :: as, by simp [resolveFrom, head, rest]⟩

theorem resolveFrom_nil (k : Nat) : resolveFrom s k [] = .ok [] := rfl

theorem resolveFrom_cons_error {k : Nat} {o : Operand} {os : List Operand} {f : FaultInfo} :
    resolveFrom s k (o :: os) = .error f ↔
      resolve s k o = .error f ∨ ∃ a, resolve s k o = .ok a ∧ resolveFrom s (k + 1) os = .error f := by
  simp only [resolveFrom]
  cases resolve s k o with
  | error e => simp
  | ok a => cases resolveFrom s (k + 1) os <;> simp

section
variable {f : FaultInfo}

theorem dataOp_unresolved {op : Opcode} {g : Int → Int → Except FaultInfo Int} {o1 o2 o3 : Operand}
    (h : resolveFrom s 1 [o1, o2, o3] = .error f) : dataOp op g o1 o2 o3 s = .next (s.raise f) := by
  have addresses : resolve3 s o1 o2 o3 = .error f := by
    simpa only [resolve3, bind_error, pure_ne_error, resolveFrom_cons_error, resolveFrom_nil,
      reduceCtorEq] using h
  simp [dataOp, addresses, bind, Except.bind]

theorem jumpOp_unresolved {op : Opcode} {taken : Int → Bool} {o1 o2 : Operand}
    (h : resolveFrom s 1 [o1, o2] = .error f) : jumpOp op taken o1 o2 s = .next (s.raise f) := by
  have addresses : resolve2 s o1 o2 = .error f := by
    simpa only [resolve2, bind_error, pure_ne_error, resolveFrom_cons_error, resolveFrom_nil,
      reduceCtorEq] using h
  simp [jumpOp, addresses, bind, Except.bind]

/-- Every instruction resolves all its parameters, in order, before anything else (R106). -/
theorem exec_unresolved {i : Instr} (h : resolveFrom s 1 i.operands = .error f) :
    exec i s = .next (s.raise f) := by
  have single : ∀ o, resolveFrom s 1 [o] = .error f → resolve s 1 o = .error f := fun o h => by
    simpa [resolveFrom_cons_error, resolveFrom_nil] using h
  cases i with
  | add | mul | lt | eq => exact dataOp_unresolved h
  | jt | jf => exact jumpOp_unresolved h
  | inp o => exact exec_inp_unresolved (single o h)
  | out o => exact exec_out_unresolved (single o h)
  | hlt => cases h

end

/-- Settles O35: the parameters before it resolve, so its fault is the resolver's. -/
theorem unresolvedOperandFaultsInExecute : Obligations.UnresolvedOperandFaultsInExecute := by
  intro s i k o ho before
  have takes : ∀ f, resolve s (k + 1) o = .error f →
      exec i s = .next (s.faultedWith (s.mem.read s.pc) f) := by
    intro f hf
    refine exec_unresolved (resolveFrom_error_of_first ho (fun j p hj hp => ?_) ?_)
    · rw [Nat.add_comm]
      exact before j p hj hp
    · rwa [Nat.add_comm]
  exact ⟨fun cell => takes _ (resolve_error.2 (.inl ⟨cell, rfl⟩)),
    fun cell addr => takes _ (resolve_error.2 (.inr ⟨cell, addr, rfl⟩))⟩

/-! ## The first parameter at pc that does not resolve -/

section
variable {op : Opcode} {modes : List Mode} (hs : s.status = .running)
  (hw : s.mem.read s.pc = some w) (hd : decodeHead s.strict w = .ok ⟨op, modes⟩)
include hs hw hd

/-- The parameters that are there are resolved first, whether one is missing after them or not
(log 10). -/
theorem step_of_unresolved {f : FaultInfo} (hf : resolveFrom s 1 (s.paramsAt modes) = .error f) :
    step s = .next (s.faultedWith (some w) f) := by
  rw [← raise_eq_faultedWith hw]
  by_cases all : (s.paramsAt modes).length = op.nparams
  · obtain ⟨i, hi, -, hos⟩ := fetchDecode_of_head hw hd all
    rw [step_decoded hs hi]
    exact exec_unresolved (hos ▸ hf)
  · rw [step_undecoded hs (fetchDecode_truncated hw hd all), truncatedFault, hf]

/-- With all that are there resolved, the first missing cell faults. -/
theorem step_of_missing {as : List Int} (missing : (s.paramsAt modes).length ≠ op.nparams)
    (hr : resolveFrom s 1 (s.paramsAt modes) = .ok as) :
    step s = .next (s.faultedWith (some w) (.outOfBounds (.paramCell ((s.paramsAt modes).length + 1))
      (s.pc + (((s.paramsAt modes).length + 1 : Nat) : Int)))) := by
  rw [step_undecoded hs (fetchDecode_truncated hw hd missing), truncatedFault, hr,
    raise_eq_faultedWith hw]
  push_cast
  rfl

end

/-- Settles O24: the k-th parameter is there exactly if its cell is in bounds, and those before it are
there and resolve. -/
theorem firstUnresolvedParameterFaults : Obligations.FirstUnresolvedParameterFaults := by
  intro s w op modes k hs hw hd hk hn before
  obtain ⟨k, rfl⟩ : ∃ n, k = n + 1 := ⟨k - 1, by omega⟩
  have inb : s.mem.inb s.pc := (Memory.read_eq_some.1 hw).1
  have count := op.nparams_le
  have len := (digit_of_head hd).1
  have resolves : ∀ i p, i < k → (s.paramsAt modes)[i]? = some p → Resolves s (1 + i) p := by
    intro i p hi hp
    obtain ⟨cell, addr⟩ := before (i + 1) (by omega) (by omega)
    rw [Nat.add_comm]
    exact ⟨cell, addrOf_paramsAt hd hp ▸ addr⟩
  refine ⟨fun no_cell => ?_, fun cell no_addr => ?_⟩
  · have there : (s.paramsAt modes).length = k := by
      have cells : ∀ j : Nat, 1 ≤ j → j ≤ k → s.mem.inb (s.pc + j) :=
        fun j h1 h2 => (before j h1 (by omega)).1
      have before_k := le_paramsAt_length (modes := modes) inb (by omega) (by omega) cells
      have not_k := mt (lt_paramsAt_length_iff (modes := modes) inb (by omega) (by omega)).1 no_cell
      omega
    obtain ⟨as, hr⟩ := resolveFrom_of_resolves (os := s.paramsAt modes) fun i p hp =>
      resolves i p (there ▸ (List.getElem?_eq_some_iff.1 hp).1) hp
    have fault := step_of_missing hs hw hd (by omega) hr
    rwa [there] at fault
  · have present : k < (s.paramsAt modes).length :=
      (lt_paramsAt_length_iff inb (by omega) (by omega)).2 cell
    have ho := List.getElem?_eq_getElem present
    have addr := addrOf_paramsAt hd ho
    refine step_of_unresolved hs hw hd (resolveFrom_error_of_first ho resolves ?_)
    rw [Nat.add_comm, ← addr]
    exact resolve_error.2 (.inr ⟨cell, addr ▸ no_addr, rfl⟩)

end Sys2Proof.Machine
end

section
/-! The outcomes of a step (R100 to R102, R110, R113, R201): what the fetch at pc reads, which words
halt, and the three things a step from Running can be, told apart by finished(). -/

namespace Sys2Proof.Machine

variable {s t : State}

/-- Settles O16: a step outside Running is the identity. -/
theorem stepOutsideRunningChangesNothing : Obligations.StepOutsideRunningChangesNothing := by
  rintro s (halted | faulted)
  · exact step_ended (by simp [halted])
  · exact step_ended (by simp [faulted])

/-- Settles O17: the fetch answers what the words at pc decode to. -/
theorem stepRunsDecodedInstruction : Obligations.StepRunsDecodedInstruction :=
  fun _ _ _ hs h => step_decoded hs (fetchDecode_of_decode h)

/-! ## The fetch -/

theorem fetchDecode_of_read_none (h : s.mem.read s.pc = none) :
    fetchDecode s = .error (.outOfBounds .fetch s.pc) := by
  simp [fetchDecode, State.fetchWords, Memory.wordsFrom, h, decode, decodeFault]

/-- Settles O21: where nothing is read at pc there is no word to decode, and else it comes first. -/
theorem fetchReadsThePcOrFaults : Obligations.FetchReadsThePcOrFaults := by
  refine fun s hs => ⟨fun out => ?_, fun inb => ?_⟩
  · have unread : s.mem.read s.pc = none := Memory.read_eq_none.2 out
    rw [step_undecoded hs (fetchDecode_of_read_none unread), raise_eq_faultedWith unread]
  · obtain ⟨w, hw⟩ := Memory.read_of_inb inb
    exact ⟨w, hw, by rw [fetchWords_of_read hw, List.head?_cons]⟩

/-- A fetched instruction has the opcode of the word at pc. -/
theorem opcodeOf_of_fetchDecode {i : Instr} (h : fetchDecode s = .ok i) :
    ∃ w, s.mem.read s.pc = some w ∧ opcodeOf w = some i.opcode := by
  cases hw : s.mem.read s.pc with
  | none => simp [fetchDecode_of_read_none hw] at h
  | some w =>
    cases hd : decodeHead s.strict w with
    | error e => simp [fetchDecode_of_head_error hw hd] at h
    | ok head =>
      by_cases all : (s.paramsAt head.modes).length = head.op.nparams
      · obtain ⟨j, hj, hop, -⟩ := fetchDecode_of_head hw hd all
        obtain rfl : j = i := by simpa [hj] using h
        exact ⟨w, rfl, hop ▸ (decodeHead_ok hd).2.1⟩
      · simp [fetchDecode_truncated hw hd all] at h

/-! ## finished() -/

theorem finished_iff :
    finished s = true ↔ ∃ w : Int, s.mem.read s.pc = some w ∧ 0 ≤ w ∧ w % 100 = 99 := by
  unfold finished
  cases s.mem.read s.pc with
  | none => simp
  | some w =>
    simp only [Bool.and_eq_true, decide_eq_true_eq, beq_iff_eq, Option.some.injEq, exists_eq_left']
    omega

theorem eq_hlt_of_opcode {i : Instr} (h : i.opcode = .hlt) : i = .hlt := by
  cases i with
  | hlt => rfl
  | _ => cases h

/-- finished() holds exactly where the instruction at pc is Halt, in both settings (R74, R75). -/
theorem finished_iff_fetchDecode : finished s = true ↔ fetchDecode s = .ok .hlt := by
  rw [finished_iff]
  constructor
  · rintro ⟨w, hw, halt_word⟩
    have hd := decodeHead_hlt (opcodeOf_eq_some (op := .hlt).2 halt_word) s.strict
    obtain ⟨i, hi, hop, -⟩ := fetchDecode_of_head hw hd rfl
    rwa [eq_hlt_of_opcode hop] at hi
  · intro h
    obtain ⟨w, hw, ho⟩ := opcodeOf_of_fetchDecode h
    exact ⟨w, hw, opcodeOf_eq_some.1 ho⟩

/-- finished() looks at memory and pc alone (R110). -/
theorem finished_congr (hm : t.mem = s.mem) (hp : t.pc = s.pc) : finished t = finished s := by
  rw [finished, hm, hp, finished]

/-! ## What a step from Running can be -/

/-- What a step from Running can leave: it takes a fault, it halts, or the core is still Running,
whether the step completed or waits. Only the second starts where finished() holds. -/
inductive RunningStep (s : State) : State → Prop where
  | faults (f : FaultInfo) (unfinished : finished s = false) : RunningStep s (s.raise f)
  | halts (atHalt : finished s = true) : RunningStep s s.halt
  | runsOn {t : State} (unfinished : finished s = false) (running : t.status = .running)
      (fault : t.fault = s.fault) (strict : t.strict = s.strict) : RunningStep s t

/-- An instruction other than Halt faults or leaves the core Running. -/
theorem Effect.runningStep {i : Instr} (hs : s.status = .running) (unfinished : finished s = false)
    (hi : i ≠ .hlt) (he : Effect s i t) : RunningStep s t := by
  cases he with
  | fault f => exact .faults f unfinished
  | halt => exact absurd rfl hi
  | data | jump | noJump | input | waitIn | output | waitOut => exact .runsOn unfinished hs rfl rfl

theorem runningStep_of_step (hs : s.status = .running) (h : step s = .next t) :
    RunningStep s t := by
  rcases step_cases h with ⟨ended, -⟩ | ⟨-, f, hf, rfl⟩ | ⟨-, i, hi, hx⟩
  · exact absurd hs ended
  · have unfinished : finished s = false := by
      simp [← Bool.not_eq_true, finished_iff_fetchDecode, hf]
    exact .faults f unfinished
  · have atHalt : finished s = true ↔ i = .hlt := by simp [finished_iff_fetchDecode, hi]
    by_cases hlt : i = .hlt
    · subst hlt
      obtain rfl : s.halt = t := by injection hx
      exact .halts (atHalt.2 rfl)
    · exact (exec_effect hx).runningStep hs (Bool.eq_false_iff.2 (mt atHalt.1 hlt)) hlt

/-- Settles O40, by cases on what a step from Running can be. -/
theorem stepWritesByOutcome : Obligations.StepWritesByOutcome := by
  intro s t hs h
  cases runningStep_of_step hs h with
  | faults f => exact ⟨by simp, by simp, rfl⟩
  | halts => exact ⟨by simp, fun _ => rfl, rfl⟩
  | runsOn _ running fault strict => exact ⟨fun _ => fault, by simp [running], strict⟩

/-- Settles O42: finished() tells the halting step from the others, and neither a Halt nor a fault
changes what it looks at. -/
theorem finishedTellsTheHaltStep : Obligations.FinishedTellsTheHaltStep := by
  refine ⟨fun _ => finished_iff, fun s t hs h => ?_⟩
  cases runningStep_of_step hs h with
  | faults f unfinished =>
    exact ⟨by simp [unfinished], by simp, fun _ => (finished_congr rfl rfl).trans unfinished⟩
  | halts atHalt =>
    exact ⟨by simp [atHalt], fun _ => (finished_congr rfl rfl).trans atHalt, by simp⟩
  | runsOn unfinished running => simp [unfinished, running]

/-! ## What a step reports -/

theorem stepReport_of_halted (hs : s.status = .halted) : stepReport s = some .halt := by
  simp [stepReport, hs]

theorem stepReport_of_faulted (hs : s.status = .faulted) :
    stepReport s = s.fault.map .fault := by
  simp [stepReport, hs]

section
variable (hs : s.status = .running) (h : step s = .next t)
include hs h

theorem stepReport_of_halts (ht : t.status = .halted) : stepReport s = some .halt := by
  simp [stepReport, hs, h, ht]

theorem stepReport_of_faults (ht : t.status = .faulted) : stepReport s = t.fault.map .fault := by
  simp [stepReport, hs, h, ht]

theorem stepReport_of_waits (ht : t.status = .running) (hw : t.wait ≠ .none) :
    stepReport s = some (.wait t.wait) := by
  cases hc : t.wait with
  | none => exact absurd hc hw
  | waitIn | waitOut => simp [stepReport, hs, h, ht, hc]

theorem stepReport_of_completes (ht : t.status = .running) (hw : t.wait = .none) :
    stepReport s = some .next := by
  simp [stepReport, hs, h, ht, hw]

theorem fault_of_faults (ht : t.status = .faulted) : ∃ r, t.fault = some r := by
  cases runningStep_of_step hs h with
  | faults f => exact ⟨_, State.raise_fault s f⟩
  | halts => cases ht
  | runsOn _ running => simp [running] at ht

end

/-- Settles O43: one equation of the report for each outcome, and a step that faults leaves a record. -/
theorem stepReportsItsOutcome : Obligations.StepReportsItsOutcome := by
  refine fun s t h => ⟨stepReport_of_halted, fun hs r hr => ?_, fun hs =>
    ⟨stepReport_of_halts hs h, fun ht => ?_, stepReport_of_waits hs h, stepReport_of_completes hs h⟩⟩
  · rw [stepReport_of_faulted hs, hr, Option.map_some]
  · obtain ⟨r, hr⟩ := fault_of_faults hs h ht
    exact ⟨r, hr, by rw [stepReport_of_faults hs h ht, hr, Option.map_some]⟩

end Sys2Proof.Machine
end

section
/-! run() and the source's own loop (R111, R112, C4): what each answers step by step, and where the two
agree. -/

namespace Sys2Proof.Machine

variable {s t u : State} {n : Nat}

/-! ## run() -/

theorem runEnd_of_running (hs : s.status = .running) : runEnd s = none := by
  simp [runEnd, hs]

theorem runEnd_raise (f : FaultInfo) : runEnd (s.raise f) = some (.fault (s.faultRecord f)) := rfl

theorem runEnd_halt : runEnd s.halt = (s.mem.read 0).map .result := rfl

theorem runFor_zero : runFor 0 s = ((runEnd s).getD .unfinished, s) := rfl

/-- run() returns at once where it has an end to return. -/
theorem runFor_ended {r : RunResult} (h : runEnd s = some r) : runFor n s = (r, s) := by
  cases n with
  | zero => simp [runFor_zero, h]
  | succ n => simp [runFor, h]

theorem runFor_succ (hr : runEnd s = none) (h : step s = .next u) :
    runFor (n + 1) s = runFor n u := by
  simp [runFor, hr, h]

/-! ## What run() returns, from the state it leaves -/

theorem reachesIn_self (hs : s.status ≠ .running) : ReachesIn n s s := by
  obtain ⟨t, ht⟩ := exists_reachesIn n s
  obtain rfl := reachesIn_ended hs ht
  exact ht

/-- run() leaves the state its bound of steps reaches, and returns what that state says. -/
theorem runFor_reaches {r : RunResult} (h : runFor n s = (r, t)) :
    ReachesIn n s t ∧ r = (runEnd t).getD .unfinished := by
  induction n generalizing s with
  | zero =>
    obtain ⟨rfl, rfl⟩ := Prod.mk.inj h
    exact ⟨reachesIn_zero.2 rfl, rfl⟩
  | succ n ih =>
    cases hr : runEnd s with
    | some r' =>
      obtain ⟨rfl, rfl⟩ := Prod.mk.inj ((runFor_ended hr).symm.trans h)
      have ended : s.status ≠ .running := fun hs => by simp [runEnd_of_running hs] at hr
      exact ⟨reachesIn_self ended, by rw [hr, Option.getD_some]⟩
    | none =>
      obtain ⟨u, hu⟩ := step_answers_next s
      rw [runFor_succ hr hu] at h
      rw [reachesIn_succ hu]
      exact ih h

/-- A Halted core without a cell 0 and a Faulted one without a record have nothing to return. -/
theorem runEnd_getD_iff :
    (∀ v, (runEnd t).getD .unfinished = .result v ↔ t.status = .halted ∧ t.mem.read 0 = some v) ∧
    (∀ f, (runEnd t).getD .unfinished = .fault f ↔ t.status = .faulted ∧ t.fault = some f) := by
  unfold runEnd result
  cases t.status with
  | running => simp
  | halted => cases t.mem.read 0 <;> simp
  | faulted => cases t.fault <;> simp

/-- Settles O56: what run() returns is read off the state it leaves. -/
theorem runReturnsResultOrFault : Obligations.RunReturnsResultOrFault := by
  intro bound s t r h
  obtain ⟨reached, rfl⟩ := runFor_reaches h
  exact ⟨reached, runEnd_getD_iff⟩

/-! ## The source's loop -/

theorem sourceLoop_ended (hs : s.status ≠ .running) : sourceLoop n s = none := by
  cases n with
  | zero => rfl
  | succ n =>
    cases h : s.status with
    | running => exact absurd h hs
    | halted | faulted => simp [sourceLoop, h]

theorem sourceLoop_finished (hs : s.status = .running) (hf : finished s = true) :
    sourceLoop (n + 1) s = some s := by
  simp [sourceLoop, hs, hf]

theorem sourceLoop_succ (hs : s.status = .running) (hf : finished s = false)
    (h : step s = .next u) : sourceLoop (n + 1) s = sourceLoop n u := by
  simp [sourceLoop, hs, hf, h]

/-- The loop ends where finished() holds, so memory has a cell 0 there. -/
theorem read_zero_of_finished (hf : finished s = true) : ∃ v, s.mem.read 0 = some v := by
  obtain ⟨w, hw, -⟩ := finished_iff.1 hf
  obtain ⟨nonneg, below⟩ := (Memory.read_eq_some.1 hw).1
  exact Memory.read_of_inb ⟨le_rfl, by omega⟩

theorem finished_of_sourceLoop (h : sourceLoop n s = some u) : finished u = true := by
  induction n generalizing s with
  | zero => cases h
  | succ n ih =>
    by_cases hs : s.status = .running
    · cases hf : finished s with
      | true =>
        obtain rfl : s = u := by simpa [sourceLoop_finished hs hf] using h
        exact hf
      | false =>
        obtain ⟨t, ht⟩ := step_answers_next s
        exact ih ((sourceLoop_succ hs hf ht).symm.trans h)
    · simp [sourceLoop_ended hs] at h

/-- run() returns a result exactly where the loop ends: it only takes the Halt step besides. -/
theorem runFor_eq_result {v : Int} (hs : s.status = .running) :
    runFor n s = (.result v, t) ↔
      ∃ u, sourceLoop n s = some u ∧ t = u.halt ∧ u.mem.read 0 = some v := by
  induction n generalizing s with
  | zero => simp [runFor_zero, runEnd_of_running hs, sourceLoop]
  | succ n ih =>
    obtain ⟨t', ht'⟩ := step_answers_next s
    rw [runFor_succ (runEnd_of_running hs) ht']
    cases runningStep_of_step hs ht' with
    | faults f unfinished =>
      rw [runFor_ended (runEnd_raise f), sourceLoop_succ hs unfinished ht',
        sourceLoop_ended (by simp)]
      simp
    | halts atHalt =>
      obtain ⟨v', hv'⟩ := read_zero_of_finished atHalt
      have ended : runEnd s.halt = some (.result v') := by rw [runEnd_halt, hv', Option.map_some]
      rw [runFor_ended ended, sourceLoop_finished hs atHalt]
      simp [hv', and_comm, eq_comm]
    | runsOn unfinished running =>
      rw [sourceLoop_succ hs unfinished ht']
      exact ih running

/-- Settles O55, by induction on the bound: both run the same steps up to the Halt word. -/
theorem runAgreesWithTheSourceLoop : Obligations.RunAgreesWithTheSourceLoop := by
  refine fun bound s hs => ⟨fun u hu => ?_, fun v t h => (runFor_eq_result hs).1 h⟩
  obtain ⟨v, hv⟩ := read_zero_of_finished (finished_of_sourceLoop hu)
  exact ⟨v, hv, (runFor_eq_result hs).2 ⟨u, hu, rfl, hv⟩⟩

end Sys2Proof.Machine
end

section
/-! The four three-parameter data instructions (R120 to R124): their words, and their next state from
what their function answers for the operand values. -/

namespace Sys2Proof.Machine

/-- The words of a three-parameter instruction (R70, R76). -/
theorem encode_of_operands_triple {i : Instr} {o1 o2 o3 : Operand} (h : i.operands = [o1, o2, o3]) :
    encode i = [((i.opcode.code + 100 * o1.mode.digit + 1000 * o2.mode.digit +
      10000 * o3.mode.digit : Nat) : Int), o1.word, o2.word, o3.word] := by
  simp [encode, Instr.headWord, h, modesValue, Nat.mul_comm, Nat.add_assoc]

section
variable {s : State} {op : Opcode} {o1 o2 o3 : Operand} {x y : Int}
  (h1 : Resolves s 1 o1) (h2 : Resolves s 2 o2) (h3 : Resolves s 3 o3)
  (hx : s.mem.read (s.addrOf 1 o1) = some x) (hy : s.mem.read (s.addrOf 2 o2) = some y)
include h1 h2 h3 hx hy

/-- A fault of the function is taken with the word at pc in its record (R187, R195). -/
theorem dataOp_eq_faultedWith {f : Int → Int → Except FaultInfo Int} {e : FaultInfo}
    (hf : f x y = .error e) :
    dataOp op f o1 o2 o3 s = .next (s.faultedWith (s.mem.read s.pc) e) :=
  (dataOp_resolved (resolve_of_resolves h1) (resolve_of_resolves h2) (resolve_of_resolves h3)
    hx hy).2 e hf

variable (hw : s.mem.wf) (hn : op.nparams = 3)
include hw hn

/-- What the function answers is stored at the target, and only memory and pc change. -/
theorem dataOp_storedAt {f : Int → Int → Except FaultInfo Int} {r : Int} (hf : f x y = .ok r) :
    ∃ m, StoredAt s (s.addrOf 3 o3) r m ∧
      dataOp op f o1 o2 o3 s = .next { s with mem := m, pc := s.pc + 4 } := by
  obtain ⟨m, hm, hd⟩ := (dataOp_resolved (resolve_of_resolves h1) (resolve_of_resolves h2)
    (resolve_of_resolves h3) hx hy).1 r hf
  have next_pc : (s.setMem m).advance op = { s with mem := m, pc := s.pc + 4 } := by
    simp [State.advance, State.setPc, State.setMem, Opcode.length, hn]
  exact ⟨m, storedAt_of_write hw hm, next_pc ▸ hd⟩

/-- Add and Multiply: the exact result where it is an i64, else Overflow (R120). -/
theorem dataOp_exactOrOverflow (g : Int → Int → Int) :
    (InRange (g x y) → ∃ m, StoredAt s (s.addrOf 3 o3) (g x y) m ∧
      dataOp op (fun x y => exactOrOverflow op x y (g x y)) o1 o2 o3 s =
        .next { s with mem := m, pc := s.pc + 4 }) ∧
    (¬ InRange (g x y) →
      dataOp op (fun x y => exactOrOverflow op x y (g x y)) o1 o2 o3 s =
        .next (s.faultedWith (s.mem.read s.pc) (.overflow op.code x y))) :=
  ⟨fun fits => dataOp_storedAt h1 h2 h3 hx hy hw hn (if_pos fits),
    fun overflows => dataOp_eq_faultedWith h1 h2 h3 hx hy (if_neg overflows)⟩

/-- Less-than and Equals: the truth word of the comparison (R123, R124). -/
theorem dataOp_truthWord (p : Int → Int → Prop) [∀ x y, Decidable (p x y)] :
    ∃ m, StoredAt s (s.addrOf 3 o3) (if p x y then 1 else 0) m ∧
      dataOp op (fun x y => .ok (truthWord (decide (p x y)))) o1 o2 o3 s =
        .next { s with mem := m, pc := s.pc + 4 } :=
  dataOp_storedAt h1 h2 h3 hx hy hw hn (truthWord_of_stored rfl)

end

/-- Settles O25: Add is the exact-or-overflow shape at `+`. -/
theorem addStoresTheExactSumOrOverflows : Obligations.AddStoresTheExactSumOrOverflows :=
  ⟨fun _ _ _ => encode_of_operands_triple rfl, fun _ _ _ _ _ _ hw h1 h2 h3 hx hy =>
    dataOp_exactOrOverflow (op := .add) h1 h2 h3 hx hy hw rfl (· + ·)⟩

/-- Settles O26: Multiply is the exact-or-overflow shape at `*`. -/
theorem multiplyStoresTheExactProductOrOverflows :
    Obligations.MultiplyStoresTheExactProductOrOverflows :=
  ⟨fun _ _ _ => encode_of_operands_triple rfl, fun _ _ _ _ _ _ hw h1 h2 h3 hx hy =>
    dataOp_exactOrOverflow (op := .mul) h1 h2 h3 hx hy hw rfl (· * ·)⟩

/-- Settles O27: Less-than is the truth-word shape at `<`. -/
theorem lessThanStoresOneOrZero : Obligations.LessThanStoresOneOrZero :=
  ⟨fun _ _ _ => encode_of_operands_triple rfl, fun _ _ _ _ _ _ hw h1 h2 h3 hx hy =>
    dataOp_truthWord (op := .lt) h1 h2 h3 hx hy hw rfl (· < ·)⟩

/-- Settles O28: Equals is the truth-word shape at `=`. -/
theorem equalsStoresOneOrZero : Obligations.EqualsStoresOneOrZero :=
  ⟨fun _ _ _ => encode_of_operands_triple rfl, fun _ _ _ _ _ _ hw h1 h2 h3 hx hy =>
    dataOp_truthWord (op := .eq) h1 h2 h3 hx hy hw rfl (· = ·)⟩

end Sys2Proof.Machine
end

section
/-! The ports' frame (R144, R146): what each instruction leaves of the source, the sink and the trace. -/

namespace Sys2Proof.Machine

section
variable {s t : State} {i : Instr} (he : Effect s i t)
include he

theorem Effect.input_eq (hi : i.opcode ≠ .inp) : t.input = s.input := by
  cases he with
  | input | waitIn => exact absurd rfl hi
  | fault | data | jump | noJump | output | waitOut | halt => rfl

theorem Effect.output_eq (hi : i.opcode ≠ .out) : t.output = s.output := by
  cases he with
  | output | waitOut => exact absurd rfl hi
  | fault | data | jump | noJump | input | waitIn | halt => rfl

/-- Only a completed port transaction is recorded, as one event of its own port: a step that faults or
waits records none. -/
theorem Effect.trace_cases :
    t.trace = s.trace ∨
      (i.opcode = .inp ∧ ∃ v, t.trace = s.trace ++ [.inEvent v]) ∨
      (i.opcode = .out ∧ ∃ v, t.trace = s.trace ++ [.outEvent v]) := by
  cases he with
  | input => exact .inr (.inl ⟨rfl, _, rfl⟩)
  | output => exact .inr (.inr ⟨rfl, _, rfl⟩)
  | fault | data | jump | noJump | waitIn | waitOut | halt => exact .inl rfl

end

/-- Settles O39, by cases on the event recorded, if any: one of the other port's is a different one. -/
theorem onlyPortInstructionsTouchPorts : Obligations.OnlyPortInstructionsTouchPorts := by
  intro s t i h
  have he := exec_effect h
  rcases he.trace_cases with ht | ⟨inp, v, ht⟩ | ⟨out, v, ht⟩
  · exact ⟨fun hi => ⟨he.input_eq hi, by simp [ht]⟩, fun ho => ⟨he.output_eq ho, by simp [ht]⟩,
      .inl ht⟩
  · exact ⟨fun hi => absurd inp hi, fun ho => ⟨he.output_eq ho, by simp [ht]⟩, .inr ⟨_, ht⟩⟩
  · exact ⟨fun hi => ⟨he.input_eq hi, by simp [ht]⟩, fun ho => absurd out ho, .inr ⟨_, ht⟩⟩

end Sys2Proof.Machine
end

section
/-! The two conditional jumps and Halt (R160 to R164): their words, the pc a jump loads, and the fault
of a second parameter that does not resolve. -/

namespace Sys2Proof.Machine

/-- The words of a two-parameter instruction (R70, R76). -/
theorem encode_of_operands_pair {i : Instr} {o1 o2 : Operand} (h : i.operands = [o1, o2]) :
    encode i = [((i.opcode.code + 100 * o1.mode.digit + 1000 * o2.mode.digit : Nat) : Int),
      o1.word, o2.word] := by
  simp [encode, Instr.headWord, h, modesValue, Nat.mul_comm, Nat.add_assoc]

/-! ## Jumps -/

section
variable {s : State} {cond dest : Operand} (h1 : Resolves s 1 cond)
include h1

/-- R81: the second parameter's address is checked before the condition is looked at. -/
theorem exec_second_out_of_bounds {i : Instr} (ho : i.operands = [cond, dest])
    (cell : s.mem.inb (s.pc + 2)) (addr : ¬ s.mem.inb (s.addrOf 2 dest)) :
    exec i s = .next (s.faultedWith (s.mem.read s.pc)
      (.outOfBounds (.operand 2) (s.addrOf 2 dest))) := by
  have second := resolve_error.2 (.inr ⟨cell, addr, rfl⟩)
  have params : resolveFrom s 1 i.operands = .error (.outOfBounds (.operand 2) (s.addrOf 2 dest)) :=
    ho ▸ resolveFrom_cons_error.2
      (.inr ⟨_, resolve_of_resolves h1, resolveFrom_cons_error.2 (.inl second)⟩)
  exact exec_unresolved params

variable {op : Opcode} {taken : Int → Bool} {c d : Int} (h2 : Resolves s 2 dest)
  (hc : s.mem.read (s.addrOf 1 cond) = some c) (hd : s.mem.read (s.addrOf 2 dest) = some d)
include h2 hc hd

/-- Only pc changes: to the target where the condition `p` of the jump holds, else past the jump. -/
theorem jumpOp_eq_next {p : Prop} [Decidable p] (hn : op.nparams = 2) (ht : taken c = true ↔ p) :
    jumpOp op taken cond dest s = .next { s with pc := if p then d else s.pc + 3 } := by
  rw [jumpOp_resolved (resolve_of_resolves h1) (resolve_of_resolves h2) hc hd]
  by_cases hp : p
  · rw [if_pos (ht.2 hp), if_pos hp]
    rfl
  · rw [if_neg (mt ht.1 hp), if_neg hp]
    simp [State.advance, State.setPc, Opcode.length, hn]

/-- R162: a taken jump completes whatever its target is, and the next fetch is at that target. -/
theorem jumpOp_taken_then_fetch (hs : s.status = .running) (ht : taken c = true) :
    ∃ t, jumpOp op taken cond dest s = .next t ∧ t.pc = d ∧ t.mem = s.mem ∧ t.status = .running ∧
      (¬ (0 ≤ d ∧ d < s.mem.len) → step t = .next (t.faultedWith none (.outOfBounds .fetch d))) := by
  have jumps : jumpOp op taken cond dest s = .next (s.setPc d) := by
    rw [jumpOp_resolved (resolve_of_resolves h1) (resolve_of_resolves h2) hc hd, if_pos ht]
  exact ⟨s.setPc d, jumps, rfl, rfl, hs, (fetchReadsThePcOrFaults (s.setPc d) hs).1⟩

end

/-- Settles O31: Jump-if-true is the jump shape at `≠ 0`. -/
theorem jumpIfTrueJumpsOnNonzero : Obligations.JumpIfTrueJumpsOnNonzero :=
  ⟨fun _ _ => encode_of_operands_pair rfl,
    fun _ _ _ _ _ h1 h2 hc hd => jumpOp_eq_next (op := .jt) h1 h2 hc hd rfl bne_iff_ne,
    fun _ _ _ h1 cell addr => exec_second_out_of_bounds h1 rfl cell addr⟩

/-- Settles O32: Jump-if-false is the jump shape at `= 0`. -/
theorem jumpIfFalseJumpsOnZero : Obligations.JumpIfFalseJumpsOnZero :=
  ⟨fun _ _ => encode_of_operands_pair rfl,
    fun _ _ _ _ _ h1 h2 hc hd => jumpOp_eq_next (op := .jf) h1 h2 hc hd rfl beq_iff_eq,
    fun _ _ _ h1 cell addr => exec_second_out_of_bounds h1 rfl cell addr⟩

/-- Settles O34: both jumps are taken by the shared shape, under their own conditions. -/
theorem jumpTargetsAreAbsoluteAndUnchecked : Obligations.JumpTargetsAreAbsoluteAndUnchecked :=
  fun _ _ _ _ _ hs h1 h2 hc hd =>
    ⟨fun nonzero => jumpOp_taken_then_fetch (op := .jt) h1 h2 hc hd hs (bne_iff_ne.2 nonzero),
      fun zero => jumpOp_taken_then_fetch (op := .jf) h1 h2 hc hd hs (beq_iff_eq.2 zero)⟩

/-! ## Halt -/

/-- R74, R75: no digit above the opcode's two, and no word after it, is looked at for Halt. -/
theorem decode_hlt {w : Int} (ho : opcodeOf w = some .hlt) (strict : Bool) (rest : List Int) :
    decode strict (w :: rest) = .ok (.hlt, rest) := by
  simp [decode, decodeHead_hlt ho, Instr.build, Opcode.nparams]

theorem exec_hlt (s : State) : exec .hlt s = .next s.halt := rfl

/-- Settles O33: the opcode alone decides the decoding, and a halted core's step is the identity. -/
theorem haltWritesOnlyStatus : Obligations.HaltWritesOnlyStatus :=
  ⟨rfl, fun strict _ rest nonneg low =>
      decode_hlt (opcodeOf_eq_some.2 ⟨nonneg, low⟩) strict rest,
    fun s => ⟨exec_hlt s, step_ended (s := s.halt) nofun⟩⟩

end Sys2Proof.Machine
end

section
/-! Faults and the ends of a run (R180, R183, R187, R188, R191, R209): which faults a step can take
and what it leaves when it takes one, and why a run ends in exactly one of its ways. -/

namespace Sys2Proof.Machine

variable {s t u : State}

/-! ## The end of a run -/

theorem reachesIn_add {n m : Nat} (h : ReachesIn n s t) :
    ReachesIn (n + m) s u ↔ ReachesIn m t u := by
  induction n generalizing s with
  | zero =>
    obtain rfl := reachesIn_zero.1 h
    rw [Nat.zero_add]
  | succ n ih =>
    obtain ⟨v, hv⟩ := step_answers_next s
    rw [Nat.succ_add, reachesIn_succ hv]
    exact ih ((reachesIn_succ hv).1 h)

/-- A run that has left Running is at the same state at every later step (R26). -/
theorem reachesIn_of_ended_le {n m : Nat} (h : ReachesIn n s t) (ended : t.status ≠ .running)
    (hnm : n ≤ m) : ReachesIn m s t := by
  obtain ⟨k, rfl⟩ := Nat.exists_eq_add_of_le hnm
  exact (reachesIn_add h).2 (reachesIn_self ended)

/-- From some step on, every state of the run from `s` satisfies `P`. -/
def SettlesIn (P : State → Prop) (s : State) : Prop :=
  ∃ n, ∀ m, n ≤ m → ∃ t, ReachesIn m s t ∧ P t

/-- Again and again, a state of the run from `s` satisfies `P`. -/
def RecursIn (P : State → Prop) (s : State) : Prop :=
  ∀ n, ∃ m t, n ≤ m ∧ ReachesIn m s t ∧ P t

section
variable {P Q : State → Prop}

theorem SettlesIn.recursIn (h : SettlesIn P s) : RecursIn P s := by
  obtain ⟨n, always⟩ := h
  intro k
  obtain ⟨t, reach, hP⟩ := always (max n k) (le_max_left n k)
  exact ⟨max n k, t, le_max_right n k, reach, hP⟩

/-- A run has one state at each step, so what holds from some step on leaves no room for what
excludes it. -/
theorem SettlesIn.not_recursIn (h : SettlesIn P s) (disjoint : ∀ t, P t → ¬ Q t) :
    ¬ RecursIn Q s := by
  obtain ⟨n, always⟩ := h
  intro recurs
  obtain ⟨m, t, hnm, reach, hQ⟩ := recurs n
  obtain ⟨u, reach', hP⟩ := always m hnm
  obtain rfl := reachesIn_unique reach reach'
  exact disjoint t hP hQ

end

theorem EndsHalted.settlesIn (h : EndsHalted s) : SettlesIn (·.status = .halted) s := by
  obtain ⟨n, t, reach, halted⟩ := h
  exact ⟨n, fun m hnm => ⟨t, reachesIn_of_ended_le reach (by simp [halted]) hnm, halted⟩⟩

theorem EndsFaulted.settlesIn (h : EndsFaulted s) : SettlesIn (·.status = .faulted) s := by
  obtain ⟨n, t, reach, faulted⟩ := h
  exact ⟨n, fun m hnm => ⟨t, reachesIn_of_ended_le reach (by simp [faulted]) hnm, faulted⟩⟩

theorem endsStuck_iff_settlesIn :
    EndsStuck s ↔ SettlesIn (fun t => t.status = .running ∧ t.wait ≠ .none) s := Iff.rfl

theorem Hangs.recursIn (h : Hangs s) :
    RecursIn (fun t => t.status = .running ∧ t.wait = .none) s := by
  intro n
  obtain ⟨m, t, hnm, reach, completes⟩ := h.2 n
  obtain ⟨u, reach', running⟩ := h.1 m
  obtain rfl := reachesIn_unique reach reach'
  exact ⟨m, t, hnm, reach, running, completes⟩

theorem not_endsHalted_and_endsFaulted (s : State) : ¬ (EndsHalted s ∧ EndsFaulted s) :=
  fun ⟨halts, faults⟩ =>
    halts.settlesIn.not_recursIn (by simp +contextual) faults.settlesIn.recursIn

/-- A run that neither halts nor faults is Running at every step. -/
theorem running_of_not_ended (noHalt : ¬ EndsHalted s) (noFault : ¬ EndsFaulted s) {n : Nat}
    (h : ReachesIn n s t) : t.status = .running := by
  cases hs : t.status with
  | running => rfl
  | halted => exact absurd ⟨n, t, h, hs⟩ noHalt
  | faulted => exact absurd ⟨n, t, h, hs⟩ noFault

/-- A run that is Running for ever and never stuck completes a step after every step. -/
theorem hangs_of_not_ended (noHalt : ¬ EndsHalted s) (noFault : ¬ EndsFaulted s)
    (noStuck : ¬ EndsStuck s) : Hangs s := by
  refine ⟨fun n => ?_, fun n => ?_⟩
  · obtain ⟨t, reach⟩ := exists_reachesIn n s
    exact ⟨t, reach, running_of_not_ended noHalt noFault reach⟩
  · by_contra waiting
    refine noStuck ⟨n, fun m hnm => ?_⟩
    obtain ⟨t, reach⟩ := exists_reachesIn m s
    exact ⟨t, reach, running_of_not_ended noHalt noFault reach,
      fun completes => waiting ⟨m, t, hnm, reach, completes⟩⟩

/-- Settles O53: what is left when a run neither halts, faults nor is stuck is to hang; and each end
but that one holds of all states from some step on, which no other end allows. -/
theorem everyRunEndsInExactlyOneWay : Obligations.EveryRunEndsInExactlyOneWay := by
  refine fun s => ⟨?_, not_endsHalted_and_endsFaulted s, fun ⟨halts, stuck⟩ => ?_,
    fun ⟨halts, hangs⟩ => ?_, fun ⟨faults, stuck⟩ => ?_, fun ⟨faults, hangs⟩ => ?_,
    fun ⟨stuck, hangs⟩ => ?_⟩
  · by_cases halts : EndsHalted s
    · exact .inl halts
    by_cases faults : EndsFaulted s
    · exact .inr (.inl faults)
    by_cases stuck : EndsStuck s
    · exact .inr (.inr (.inl stuck))
    exact .inr (.inr (.inr (hangs_of_not_ended halts faults stuck)))
  · exact halts.settlesIn.not_recursIn (by simp +contextual)
      (endsStuck_iff_settlesIn.1 stuck).recursIn
  · exact halts.settlesIn.not_recursIn (by simp +contextual) hangs.recursIn
  · exact faults.settlesIn.not_recursIn (by simp +contextual)
      (endsStuck_iff_settlesIn.1 stuck).recursIn
  · exact faults.settlesIn.not_recursIn (by simp +contextual) hangs.recursIn
  · exact (endsStuck_iff_settlesIn.1 stuck).not_recursIn (by simp +contextual) hangs.recursIn

/-- Settles O54: a faulted state of the run would be a second end of it. -/
theorem haltedRunsAreSafe : Obligations.HaltedRunsAreSafe :=
  fun s halts _ m t _ reach faulted =>
    not_endsHalted_and_endsFaulted s ⟨halts, m, t, reach, faulted⟩

/-! ## Faulting steps -/

/-- Settles O22: the word has no opcode, which is the first thing looked at. -/
theorem illegalWordFaultsUnknownOpcode : Obligations.IllegalWordFaultsUnknownOpcode :=
  fun s w hs hw illegal =>
    ⟨step_of_head_error hs hw ((illegalOpcodesAreExactly s.strict w).2 illegal), rfl⟩

/-- Settles O41: a step from Running ends in Faulted only by taking a fault. -/
theorem faultsArePrecise : Obligations.FaultsArePrecise := by
  intro s t hs h ht
  cases runningStep_of_step hs h with
  | faults f => exact ⟨f, raise_eq_faultedWith rfl f⟩
  | halts => cases ht
  | runsOn _ running => simp [running] at ht

/-- Settles O45: the code is a function of the kind, and that of the fault's information. -/
theorem faultCodesAreTheTables : Obligations.FaultCodesAreTheTables :=
  fun _ _ _ _ _ _ _ _ _ _ => ⟨rfl, rfl, rfl, rfl, rfl, rfl⟩

/-! ## The faults of each instruction -/

/-- Every instruction may raise OutOfBounds at the cell and at the address of its own parameters. -/
theorem mayRaise_outOfBounds {i : Instr} {k : Nat} {site : Site} (a : Int) (hk : 1 ≤ k)
    (hn : k ≤ i.opcode.nparams) (hsite : site = .paramCell k ∨ site = .operand k) :
    i.MayRaise (.outOfBounds site a) := by
  rcases hsite with rfl | rfl <;> exact ⟨hk, hn⟩

theorem mayRaise_of_exactOrOverflow {i : Instr} {x y r : Int} {e : FaultInfo}
    (hi : i.opcode = .add ∨ i.opcode = .mul) (h : exactOrOverflow i.opcode x y r = .error e) :
    i.MayRaise e := by
  obtain ⟨-, rfl⟩ := exactOrOverflow_error h
  exact ⟨rfl, hi⟩

section
variable {i : Instr} (hs : s.status = .running) (ht : t.status = .faulted)
include hs ht

theorem dataOp_mayRaise {f : Int → Int → Except FaultInfo Int} {o1 o2 o3 : Operand}
    (hn : i.opcode.nparams = 3) (hf : ∀ x y e, f x y = .error e → i.MayRaise e)
    (h : dataOp i.opcode f o1 o2 o3 s = .next t) : ∃ e, t = s.raise e ∧ i.MayRaise e := by
  rcases dataOp_cases h with ⟨_, _, _, m, -, -, -, -, -, rfl⟩ |
    ⟨e, rfl, ⟨k, hk, hk3, site, a, rfl, hsite⟩ | ⟨x, y, he⟩⟩
  · simp [hs] at ht
  · exact ⟨_, rfl, mayRaise_outOfBounds a hk (hn ▸ hk3) hsite⟩
  · exact ⟨e, rfl, hf x y e he⟩

theorem jumpOp_mayRaise {taken : Int → Bool} {o1 o2 : Operand} (hn : i.opcode.nparams = 2)
    (h : jumpOp i.opcode taken o1 o2 s = .next t) : ∃ e, t = s.raise e ∧ i.MayRaise e := by
  rcases jumpOp_cases h with ⟨c, d, -, -, -, rfl⟩ | ⟨e, rfl, k, hk, hk2, site, a, rfl, hsite⟩
  · split at ht <;> simp [hs] at ht
  · exact ⟨_, rfl, mayRaise_outOfBounds a hk (hn ▸ hk2) hsite⟩

theorem execInp_mayRaise {o : Operand} (h : execInp o s = .next t) :
    ∃ e, t = s.raise e ∧ (Instr.inp o).MayRaise e := by
  rcases execInp_cases h with ⟨v, m, -, -, -, rfl⟩ | ⟨-, -, -, rfl⟩ |
    ⟨e, rfl, rfl | rfl | ⟨site, a, rfl, hsite⟩⟩
  · simp [hs] at ht
  · simp [hs] at ht
  · exact ⟨_, rfl, rfl⟩
  · exact ⟨_, rfl, rfl⟩
  · exact ⟨_, rfl, mayRaise_outOfBounds a le_rfl le_rfl hsite⟩

theorem execOut_mayRaise {o : Operand} (h : execOut o s = .next t) :
    ∃ e, t = s.raise e ∧ (Instr.out o).MayRaise e := by
  rcases execOut_cases h with ⟨v, -, -, -, rfl⟩ | ⟨v, -, -, -, rfl⟩ | ⟨e, rfl, site, a, rfl, hsite⟩
  · simp [hs] at ht
  · simp [hs] at ht
  · exact ⟨_, rfl, mayRaise_outOfBounds a le_rfl le_rfl hsite⟩

/-- An instruction that faults takes a fault of its own row of R188. -/
theorem exec_mayRaise (h : exec i s = .next t) : ∃ e, t = s.raise e ∧ i.MayRaise e := by
  cases i with
  | add o1 o2 o3 =>
    exact dataOp_mayRaise (i := .add o1 o2 o3) hs ht rfl
      (fun _ _ _ => mayRaise_of_exactOrOverflow (.inl rfl)) h
  | mul o1 o2 o3 =>
    exact dataOp_mayRaise (i := .mul o1 o2 o3) hs ht rfl
      (fun _ _ _ => mayRaise_of_exactOrOverflow (.inr rfl)) h
  | lt o1 o2 o3 => exact dataOp_mayRaise (i := .lt o1 o2 o3) hs ht rfl (fun _ _ _ => by simp) h
  | eq o1 o2 o3 => exact dataOp_mayRaise (i := .eq o1 o2 o3) hs ht rfl (fun _ _ _ => by simp) h
  | jt o1 o2 => exact jumpOp_mayRaise (i := .jt o1 o2) hs ht rfl h
  | jf o1 o2 => exact jumpOp_mayRaise (i := .jf o1 o2) hs ht rfl h
  | inp o => exact execInp_mayRaise hs ht h
  | out o => exact execOut_mayRaise hs ht h
  | hlt =>
    obtain rfl : s.halt = t := by injection h
    cases ht

end

/-- Settles O44, by cases on the instruction. -/
theorem instructionRaisesOnlyItsFaults : Obligations.InstructionRaisesOnlyItsFaults := by
  intro s t i hs h ht
  obtain ⟨f, rfl, raises⟩ := exec_mayRaise hs ht h
  exact ⟨f, State.raise_fault s f, raises⟩

end Sys2Proof.Machine
end

section
/-! The reset state (R220): what construction leaves in every element of the state, and that
State.reset, as one constructed core, satisfies the invariant. -/

namespace Sys2Proof.Machine

/-- Settles O2: the arguments meet `construct`'s conditions, and its memory is read as the image. -/
theorem constructEstablishesResetState : Obligations.ConstructEstablishesResetState := by
  intro image source sink strict hlen hwords hsource
  exact ⟨_, construct_eq_some.2 ⟨⟨hlen, hwords, hsource⟩, rfl⟩, rfl,
    fun i _ => Memory.ofImage_read image i, rfl, rfl, rfl, rfl, rfl, rfl⟩

/-- Settles O5: the invariant is `construct_inv`; trace and strictness stand in the state made. -/
theorem constructSatisfiesInvariant : Obligations.ConstructSatisfiesInvariant := by
  intro image source sink strict s h
  have inv : s.Inv := construct_inv h
  obtain ⟨-, rfl⟩ := construct_eq_some.1 h
  exact ⟨inv, rfl, rfl⟩

/-- Settles O1: the empty image and the source without values meet `construct`'s conditions, and the
state made is State.reset field by field. -/
theorem resetIsConstructOfEmptyImage : Obligations.ResetIsConstructOfEmptyImage :=
  construct_eq_some.2 ⟨⟨Nat.zero_le _, List.forall_mem_nil _, by decide⟩, rfl⟩

/-- Settles O4: State.reset is a constructed core (O1), so it satisfies the invariant. -/
theorem resetSatisfiesInvariant : Obligations.ResetSatisfiesInvariant :=
  construct_inv resetIsConstructOfEmptyImage

end Sys2Proof.Machine
end
